-- ==== Sys2Proof/Word.lean ====
section
/-! DEFINITION. The word types of the block, named as the spec names them. -/

namespace Sys2Proof

/-- A byte is 8 bits (spec/00_scope.md section 5). -/
abbrev Byte := BitVec 8

/-- A command word, `cmd[39:0]` (R60). -/
abbrev CmdWord := BitVec 40

/-- A ColorIndex, an integer 0 to 15 held in 4 bits (R64). -/
abbrev ColorIndex := BitVec 4

/-- A Phrase, an ordered sequence of ColorIndex values (R19). -/
abbrev Phrase := List ColorIndex

/-- The dictionary store: a finite map from Phrase to Code (R20), held as a list of pairs. A Code is
a natural number (R65).
Its one canonical form is `Machine.Dict.wf` in `Machine/Ops.lean`. -/
abbrev Dict := List (Phrase × Nat)

end Sys2Proof
end

