-- ==== Sys2Proof/Syntax.lean ====
section
/-! DEFINITION. The commands of the block (`Instr`, one constructor per row of
`spec/opcode_table.json`) and the source lines of the spec's assembler (`Asm`). -/

namespace Sys2Proof

/-- The seven host commands (R60, R61). Every operand is a bit vector of exactly its field's width,
so a term holds the operand the word carries and nothing else. Operands stand in the order of the
assembler (R75). -/
inductive Instr where
  /-- `CFGDIM width, height` (R171). -/
  | cfgdim (width height : BitVec 16)
  /-- `CFGDLY delay_ms` (R172). -/
  | cfgdly (delayMs : BitVec 16)
  /-- `START` (R173). -/
  | start
  /-- `PIX red, green, blue, opacity` (R174). -/
  | pix (red green blue opacity : Byte)
  /-- `SYM s` (R175). -/
  | sym (s : ColorIndex)
  /-- `FLUSH` (R176). -/
  | flush
  /-- `SAVE` (R177). -/
  | save
deriving DecidableEq, Repr

/-- One pixel tuple of the `PIXS` pseudo-instruction, as written in source (R76). -/
structure AsmPixel where
  red : Nat
  green : Nat
  blue : Nat
  opacity : Nat
deriving DecidableEq, Repr

/-- A source line of the assembler: the seven commands with operands as the natural numbers written
there (R75), and the four pseudo-instructions (R76, R178, R179). -/
inductive Asm where
  | cfgdim (width height : Nat)
  | cfgdly (delayMs : Nat)
  | start
  | pix (p : AsmPixel)
  | sym (s : Nat)
  | flush
  | save
  /-- Pseudo-instruction `ADD width, height, delay_ms` (R178). -/
  | add (width height delayMs : Nat)
  /-- Pseudo-instruction `SYMS s0 s1 ... sn` (R76). -/
  | syms (s : List Nat)
  /-- Pseudo-instruction `PIXS (r,g,b,a) ...` (R76). -/
  | pixs (p : List AsmPixel)
  /-- Pseudo-instruction `ENCODE s0 ... sn` (R179). -/
  | encode (s : List Nat)
deriving DecidableEq, Repr

end Sys2Proof
end

