-- ==== Sys2Proof/WellFormed.lean ====
section
/-! DEFINITION. Which terms have an encoding. -/

namespace Sys2Proof

/-- Every `Instr` is well formed: each operand field is a bit vector of the field's own width, every
value of every field has an encoding (R60, R62), and a zero dimension "assembles and faults at
execution" (R75). The range checks are those of the source lines, below. -/
def Instr.wellFormed : Instr → Bool
  | .cfgdim _ _ => true
  | .cfgdly _ => true
  | .start => true
  | .pix _ _ _ _ => true
  | .sym _ => true
  | .flush => true
  | .save => true

/-- A channel operand is 0 to 255 (R75). -/
def Asm.channelFits (n : Nat) : Bool := decide (n ≤ 255)

/-- A dimension or delay operand is at most 65535 (R75). -/
def Asm.halfFits (n : Nat) : Bool := decide (n ≤ 65535)

/-- A colour index operand is 0 to 15 (R75). -/
def Asm.symbolFits (n : Nat) : Bool := decide (n ≤ 15)

/-- All four channels of a pixel fit (R75). -/
def AsmPixel.fits (p : AsmPixel) : Bool :=
  Asm.channelFits p.red && Asm.channelFits p.green && Asm.channelFits p.blue &&
    Asm.channelFits p.opacity

/-- "An operand outside its range cannot be assembled (it has no encoding), except that `CFGDIM`
with a zero operand assembles and faults at execution" (R75). A pseudo-instruction is well formed
when its expansion is (R76). -/
def Asm.wellFormed : Asm → Bool
  | .cfgdim width height => halfFits width && halfFits height
  | .cfgdly delayMs => halfFits delayMs
  | .start => true
  | .pix p => p.fits
  | .sym s => symbolFits s
  | .flush => true
  | .save => true
  | .add width height delayMs => halfFits width && halfFits height && halfFits delayMs
  | .syms s => s.all symbolFits
  | .pixs p => p.all AsmPixel.fits
  | .encode s => s.all symbolFits

end Sys2Proof
end

