-- ==== Sys2Proof/Decode.lean ====
section
/-! DEFINITION. The decoder of command words (R61), the encoder written from the same table (R60),
and the assembler's expansion of source lines into commands (R75, R76). -/

namespace Sys2Proof

/-- The low half of the operand, `cmd[15:0]` (R60). -/
def CmdWord.lowHalf (w : CmdWord) : BitVec 16 := w.extractLsb' 0 16

/-- The high half of the operand, `cmd[31:16]` (R60). -/
def CmdWord.highHalf (w : CmdWord) : BitVec 16 := w.extractLsb' 16 16

/-- Byte `k` of the operand, `cmd[8k+7:8k]` (R60). -/
def CmdWord.operandByte (w : CmdWord) (k : Nat) : Byte := w.extractLsb' (8 * k) 8

/-- The symbol field of `SYM`, `cmd[3:0]` (R60). -/
def CmdWord.symbolField (w : CmdWord) : ColorIndex := w.extractLsb' 0 4

/-- A row of the opcode table: a word matches when `(cmd AND mask) = match` (R61), and then carries
the operands of the row's format (R60). -/
structure Row where
  mnemonic : String
  pattern : CmdWord
  mask : CmdWord
  operands : CmdWord → Instr

/-- `(cmd AND mask) = match` (R61). -/
def Row.accepts (r : Row) (w : CmdWord) : Bool := (w &&& r.mask) == r.pattern

/-- CFGDIM: `height = cmd[31:16]`, `width = cmd[15:0]` (R60). -/
def rowCfgdim : Row := ⟨"CFGDIM", 0x0100000000, 0xFF00000000, fun w => .cfgdim w.lowHalf w.highHalf⟩

/-- CFGDLY: `delay_ms = cmd[15:0]` (R60). -/
def rowCfgdly : Row := ⟨"CFGDLY", 0x0200000000, 0xFFFFFF0000, fun w => .cfgdly w.lowHalf⟩

/-- START has no operand (R60). -/
def rowStart : Row := ⟨"START", 0x0300000000, 0xFFFFFFFFFF, fun _ => .start⟩

/-- PIX: `red = cmd[31:24]`, `green = cmd[23:16]`, `blue = cmd[15:8]`, `opacity = cmd[7:0]` (R60). -/
def rowPix : Row :=
  ⟨"PIX", 0x0400000000, 0xFF00000000,
    fun w => .pix (w.operandByte 3) (w.operandByte 2) (w.operandByte 1) (w.operandByte 0)⟩

/-- SYM: `s = cmd[3:0]` (R60). -/
def rowSym : Row := ⟨"SYM", 0x0500000000, 0xFFFFFFFFF0, fun w => .sym w.symbolField⟩

/-- FLUSH has no operand (R60). -/
def rowFlush : Row := ⟨"FLUSH", 0x0600000000, 0xFFFFFFFFFF, fun _ => .flush⟩

/-- SAVE has no operand (R60). -/
def rowSave : Row := ⟨"SAVE", 0x0700000000, 0xFFFFFFFFFF, fun _ => .save⟩

/-- The rows of `spec/opcode_table.json` (R61). -/
def opcodeTable : List Row :=
  [rowCfgdim, rowCfgdly, rowStart, rowPix, rowSym, rowFlush, rowSave]

/-- The decoder: the row that matches, with its operands. `none` is a word "that matches no row",
which R63 calls illegal and for which `Machine/Command.lean` raises IllegalCommand. -/
def decode (w : CmdWord) : Option Instr :=
  (opcodeTable.find? fun r => r.accepts w).map fun r => r.operands w

/-- The row of a command. -/
def Instr.row : Instr → Row
  | .cfgdim _ _ => rowCfgdim
  | .cfgdly _ => rowCfgdly
  | .start => rowStart
  | .pix _ _ _ _ => rowPix
  | .sym _ => rowSym
  | .flush => rowFlush
  | .save => rowSave

/-- A field of a command word: its value zero-extended, with its bit 0 at bit `lo` (R60, R62). -/
def CmdWord.field {n : Nat} (v : BitVec n) (lo : Nat) : CmdWord := v.setWidth 40 <<< lo

/-- The encoder: opcode in `cmd[39:32]`, operand fields where R60 tabulates them, every other bit
0. -/
def encode : Instr → CmdWord
  | .cfgdim width height =>
    CmdWord.field 0x01#8 32 ||| CmdWord.field height 16 ||| CmdWord.field width 0
  | .cfgdly delayMs => CmdWord.field 0x02#8 32 ||| CmdWord.field delayMs 0
  | .start => CmdWord.field 0x03#8 32
  | .pix red green blue opacity =>
    CmdWord.field 0x04#8 32 ||| CmdWord.field red 24 ||| CmdWord.field green 16 |||
      CmdWord.field blue 8 ||| CmdWord.field opacity 0
  | .sym s => CmdWord.field 0x05#8 32 ||| CmdWord.field s 0
  | .flush => CmdWord.field 0x06#8 32
  | .save => CmdWord.field 0x07#8 32

/-- The `PIX` command of a pixel tuple (R75). -/
def AsmPixel.command (p : AsmPixel) : Instr :=
  .pix (BitVec.ofNat 8 p.red) (BitVec.ofNat 8 p.green) (BitVec.ofNat 8 p.blue)
    (BitVec.ofNat 8 p.opacity)

/-- The `SYM` command of a written colour index (R75). -/
def Asm.symbolCommand (s : Nat) : Instr := .sym (BitVec.ofNat 4 s)

/-- The commands a source line stands for; a pseudo-instruction is expanded as R76 tabulates. Only
meaningful for a well-formed line (`Asm.assemble`). -/
def Asm.expand : Asm → List Instr
  | .cfgdim width height => [.cfgdim (BitVec.ofNat 16 width) (BitVec.ofNat 16 height)]
  | .cfgdly delayMs => [.cfgdly (BitVec.ofNat 16 delayMs)]
  | .start => [.start]
  | .pix p => [p.command]
  | .sym s => [symbolCommand s]
  | .flush => [.flush]
  | .save => [.save]
  | .add width height delayMs =>
    [.cfgdim (BitVec.ofNat 16 width) (BitVec.ofNat 16 height), .cfgdly (BitVec.ofNat 16 delayMs),
      .start]
  | .syms s => s.map symbolCommand
  | .pixs p => p.map AsmPixel.command
  | .encode s => .start :: s.map symbolCommand ++ [.flush]

/-- The command words of a source line, or `none` where an operand "has no encoding" (R75). -/
def Asm.assemble (line : Asm) : Option (List CmdWord) :=
  if line.wellFormed then some (line.expand.map Sys2Proof.encode) else none

/-- A command word from the number the opcode table writes: the low `nbits` bits of `w`, the bits
above them 0. `none` when the number has a bit above bit 39, which no command word has (R60; DEDUCED,
log entry 15). -/
def wordOfTable (nbits w : Nat) : Option CmdWord :=
  if w % 2 ^ nbits < 2 ^ 40 then some (BitVec.ofNat 40 (w % 2 ^ nbits)) else none

/-- What the decoder reads from the command word with the bits of `w`, numbered as
`spec/opcode_table.json` numbers them: one 40-bit word, bit 0 its least significant bit, transferred
whole (R45). -/
def decodeTableWord (nbits w : Nat) : Option Instr :=
  (wordOfTable nbits w).bind decode

end Sys2Proof
end

