-- ==== Sys2Proof/Config.lean ====
section
/-! DEFINITION. The parameters of the hardware (R8): what "a model takes as arguments". The fixed
constants of R8 are in `Machine/Constants.lean`, and so are the default values of the parameters.
The manual leaves no result of any command undefined, so there is no free value here. -/

namespace Sys2Proof

/-- The parameter MAX_WIDTH of R8: "natural number ≥ 5, or `unbounded`". -/
inductive WidthLimit where
  /-- The packer may reach code width `m` and no further. -/
  | bounded (m : Nat)
  /-- No limit: the reference behaviour of R128. -/
  | unbounded
deriving DecidableEq, Repr

/-- One entry of the global colour table: red, green, blue (R142). -/
structure Rgb where
  red : Byte
  green : Byte
  blue : Byte
deriving DecidableEq, Repr

/-- The two parameters of R8. GCT is "16 RGB triples". -/
structure Params where
  maxWidth : WidthLimit
  gct : Vector Rgb 16
deriving DecidableEq, Repr

/-- The values of MAX_WIDTH that R8 admits: at least 5, or unbounded. -/
abbrev Params.Legal (p : Params) : Prop :=
  match p.maxWidth with
  | .bounded m => 5 ≤ m
  | .unbounded => True

end Sys2Proof
end

