-- ==== Sys2Proof/Machine/Constants.lean ====
section
/-! DEFINITION. The fixed constants of R8 and R23, and the default values of the two parameters. -/

namespace Sys2Proof.Machine

/-- MIN_CODE_SIZE (R8, R77). -/
def minCodeSize : Nat := 4

/-- INIT_WIDTH, the initial code width (R8, R66). -/
def initWidth : Nat := 5

/-- CLEAR_CODE (R8, R65). -/
def clearCode : Nat := 16

/-- EOI_CODE (R8, R65). -/
def eoiCode : Nat := 17

/-- FIRST_CODE, the first dictionary-assigned code (R8, R65). -/
def firstCode : Nat := 18

/-- TRANSPARENT_INDEX (R8, R64). -/
def transparentIndex : ColorIndex := 15

/-- BACKGROUND_INDEX (R8, R141). -/
def backgroundIndex : Byte := 0x08

/-- SUBBLOCK_MAX (R8, R146). -/
def subBlockMax : Nat := 255

/-- DEFAULT_WIDTH, the reset value of WIDTH (R8, R11). -/
def defaultWidth : BitVec 16 := 320

/-- DEFAULT_HEIGHT, the reset value of HEIGHT (R8, R12). -/
def defaultHeight : BitVec 16 := 250

/-- DEFAULT_DELAY_MS, the reset value of DELAY_MS (R8, R13). -/
def defaultDelayMs : BitVec 16 := 40

/-- The default of MAX_WIDTH (R8). -/
def defaultMaxWidth : WidthLimit := .bounded 12

/-- One channel of a default palette entry: "FF when the corresponding bit of the index is 1, else
00" (R142). -/
def fullIntensity (present : Bool) : Byte := if present then 0xFF else 0x00

/-- Entry `i` of the default palette: entries 0 to 7 follow the index bits (bit 2 red, bit 1 green,
bit 0 blue), entries 8 to 15 are all zero (R142). -/
def defaultRgb (i : ColorIndex) : Rgb :=
  if i.getLsbD 3 then ⟨0x00, 0x00, 0x00⟩
  else ⟨fullIntensity (i.getLsbD 2), fullIntensity (i.getLsbD 1), fullIntensity (i.getLsbD 0)⟩

/-- The default of GCT (R142). -/
def defaultGct : Vector Rgb 16 :=
  #v[defaultRgb 0, defaultRgb 1, defaultRgb 2, defaultRgb 3,
     defaultRgb 4, defaultRgb 5, defaultRgb 6, defaultRgb 7,
     defaultRgb 8, defaultRgb 9, defaultRgb 10, defaultRgb 11,
     defaultRgb 12, defaultRgb 13, defaultRgb 14, defaultRgb 15]

/-- The parameters at their defaults (R8). -/
def defaultParams : Params := { maxWidth := defaultMaxWidth, gct := defaultGct }

end Sys2Proof.Machine
end

