-- ==== Sys2Proof/Machine/State.lean ====
section
/-! DEFINITION. The state of the block (R10), what the host does to it, and the state after reset
(R31). -/

namespace Sys2Proof.Machine

/-- LZ_STATE, the state of the LZW encoder state machine (R14). Its number is `LzState.number`. -/
inductive LzState where
  /-- No encode has been started since reset. -/
  | idle
  /-- An encode is running and no phrase is buffered. -/
  | empty
  /-- An encode is running and the phrase is non-empty. -/
  | accumulating
  /-- The encode has ended and OUT holds its result. -/
  | flushed
deriving DecidableEq, Repr

/-- The five causes FAULT can record (R201). Their numbers are `FaultCause.code`. -/
inductive FaultCause where
  /-- The word matches no row of the opcode table (R202). -/
  | illegalCommand
  /-- PIX, SYM, FLUSH or SAVE outside an encode (R203). -/
  | sequenceError
  /-- CFGDIM with a zero operand (R204). -/
  | invalidDimensions
  /-- SAVE with SYMCOUNT different from WIDTH × HEIGHT (R205). -/
  | pixelCountMismatch
  /-- A mismatch step that would push CUR_WIDTH above MAX_WIDTH (R206). -/
  | dictionaryOverflow
deriving DecidableEq, Repr

/-- What the host can read: the registers of R40 by name, and one byte of OUT by offset (R42). DICT,
PHRASE, NEXT_CODE, CUR_WIDTH, ACC and NBITS are not host-visible (R40), so no port names them. -/
inductive Port where
  | width
  | height
  | delayMs
  | lzState
  | fault
  | faultCmd
  | symCount
  | outLength
  | out (i : Nat)
deriving DecidableEq, Repr

/-- What a host read returns: a whole register, or one byte of OUT (R47). -/
inductive HostValue where
  | width (v : BitVec 16)
  | height (v : BitVec 16)
  | delayMs (v : BitVec 16)
  | lzState (number : Nat)
  | fault (v : BitVec 3)
  | faultCmd (v : CmdWord)
  | symCount (v : BitVec 32)
  | outLength (n : Nat)
  | outByte (b : Byte)
deriving DecidableEq, Repr

/-- One thing the host does, between two commands: present a command word (R170), raise the reset
event (R230), or read (R40, R42). -/
inductive HostInput where
  | command (w : CmdWord)
  | reset
  | read (p : Port)
deriving DecidableEq, Repr

/-- Reasons for the machine to stop with a fault: there is none. Every fault of this hardware is
recorded in FAULT and FAULT_CMD and the block goes on to the next command (R208, R209), so it is a
next state, never the outcome `fault`. Safe: nothing raises it. -/
inductive Fault where
deriving DecidableEq, Repr

/-- Reasons for the model to have no step. All are safe: the model stops. -/
inductive Refusal where
  /-- Raised by an arm of `exec` whose command has no meaning yet; no arm does so now. Safe. -/
  | notModelled (mnemonic : String)
  /-- Raised by PUSHWORD when `value < 2^width` does not hold or `width` is 0: "a model must refuse a
  PUSHWORD that violates it" (R105). Safe; unreachable from reset (R130). -/
  | wordDoesNotFit
  /-- Raised by SETWIDTH when its operand is below 5, outside the operand's domain (R106). Safe;
  unreachable from reset. -/
  | widthBelowInitial
  /-- Raised by PUSHWORD after FINISH, before the next START: "the encoder never does any of them; a
  model gives them no step" (93_implementation_defined.md U18). Safe; unreachable from reset. -/
  | pushAfterFinish
  /-- Raised by SETWIDTH to a width below CUR_WIDTH within an encode: "a model gives them no step"
  (93_implementation_defined.md U18). Safe; unreachable from reset. -/
  | widthNarrowed
  /-- Raised by CODEOF for a phrase that is neither of length 1 nor a key of DICT: "must refuse, not
  pick a value" (R98). Safe; unreachable from reset (R22). -/
  | phraseWithoutCode
  /-- Raised by a host read of OUT at or beyond its length: "the model must refuse it (no step)"
  (R42). Safe. -/
  | outReadPastEnd
deriving DecidableEq, Repr

/-- The state. The first fourteen fields are the tuple of R10, "and nothing else" belongs to the
block. The last four are the model's: the position R24 asks a model to keep, what the host does
next, what the last host read returned, and the parameters of R8 (DESIGN CHOICE, log entries 1, 2
and 8). -/
structure State where
  /-- WIDTH (R11). -/
  width : BitVec 16
  /-- HEIGHT (R12). -/
  height : BitVec 16
  /-- DELAY_MS (R13). -/
  delayMs : BitVec 16
  /-- LZ_STATE (R14). -/
  lzState : LzState
  /-- FAULT (R15). -/
  fault : BitVec 3
  /-- FAULT_CMD (R16). -/
  faultCmd : CmdWord
  /-- SYMCOUNT (R18). -/
  symCount : BitVec 32
  /-- PHRASE (R19). -/
  phrase : Phrase
  /-- DICT (R20). -/
  dict : Dict
  /-- NEXT_CODE (R21). -/
  nextCode : Nat
  /-- CUR_WIDTH (R25). -/
  curWidth : Nat
  /-- ACC (R26). -/
  acc : Nat
  /-- NBITS (R26). -/
  nbits : Nat
  /-- OUT (R27). -/
  out : List Byte
  /-- CMD_INDEX: the number of commands presented so far (R24). -/
  cmdIndex : Nat
  /-- What the host does from here on, oldest first. -/
  input : List HostInput
  /-- What the last host read returned. -/
  reply : Option HostValue
  /-- The parameters, which nothing writes (R8). -/
  params : Params
deriving DecidableEq, Repr

/-- The state right after reset (R31, R230), with CMD_INDEX "0 at the start" (R24), nothing asked of
the block yet, and the parameters at their defaults (R8). -/
def State.reset : State where
  width := defaultWidth
  height := defaultHeight
  delayMs := defaultDelayMs
  lzState := .idle
  fault := 0
  faultCmd := 0
  symCount := 0
  phrase := []
  dict := []
  nextCode := 18
  curWidth := 5
  acc := 0
  nbits := 0
  out := []
  cmdIndex := 0
  input := []
  reply := none
  params := defaultParams

end Sys2Proof.Machine
end

