-- ==== Sys2Proof/Machine/Flags.lean ====
section
/-! DEFINITION. The status registers. The block has no condition codes (R17); what a command's result
depends on is LZ_STATE and FAULT, and the tests below, each of which the manual names. -/

namespace Sys2Proof.Machine

/-- The numeric value of LZ_STATE, as the host reads it (R14). -/
def LzState.number : LzState → Nat
  | .idle => 0
  | .empty => 1
  | .accumulating => 2
  | .flushed => 3

/-- The cause code written to FAULT (R201). -/
def FaultCause.code : FaultCause → BitVec 3
  | .illegalCommand => 1
  | .sequenceError => 2
  | .invalidDimensions => 3
  | .pixelCountMismatch => 4
  | .dictionaryOverflow => 5

/-- An encode is running: LZ_STATE is Empty or Accumulating. -/
def LzState.running : LzState → Bool
  | .idle => false
  | .empty => true
  | .accumulating => true
  | .flushed => false

/-- The legality table of R170 step 3. -/
def legalIn (i : Instr) (z : LzState) : Bool :=
  match i with
  | .cfgdim _ _ => true
  | .cfgdly _ => true
  | .start => true
  | .pix _ _ _ _ => z.running
  | .sym _ => z.running
  | .flush => z.running
  | .save => z.running

/-- `min(SYMCOUNT + 1, 2^32 - 1)`: the symbol counter saturates (R18, R182). -/
def countUp (n : BitVec 32) : BitVec 32 := BitVec.ofNat 32 (min (n.toNat + 1) (2 ^ 32 - 1))

/-- `NEXT_CODE >= 2^CUR_WIDTH`: the next code would not fit the width (R124). -/
def needsWidth (nextCode curWidth : Nat) : Bool := decide (2 ^ curWidth ≤ nextCode)

/-- `CUR_WIDTH = MAX_WIDTH`; never true of `unbounded` (R128; DEDUCED, log entry 17). -/
def atLimit (limit : WidthLimit) (curWidth : Nat) : Bool :=
  match limit with
  | .bounded m => curWidth == m
  | .unbounded => false

/-- The overflow test of R128: `NEXT_CODE + 1 >= 2^CUR_WIDTH and CUR_WIDTH = MAX_WIDTH`. -/
def wouldOverflow (s : State) : Bool :=
  needsWidth (s.nextCode + 1) s.curWidth && atLimit s.params.maxWidth s.curWidth

/-- CFGDIM's own check: "width = 0 or height = 0" (R171, R204). -/
def dimensionsCheck (width height : BitVec 16) : Option FaultCause :=
  if width = 0 ∨ height = 0 then some .invalidDimensions else none

/-- `WIDTH * HEIGHT`, "computed without truncation" (R177, R182). -/
def pixelCount (s : State) : Nat := s.width.toNat * s.height.toNat

/-- SAVE's own check: "SYMCOUNT != WIDTH * HEIGHT" (R177, R205). -/
def pixelCountCheck (s : State) : Option FaultCause :=
  if s.symCount.toNat ≠ pixelCount s then some .pixelCountMismatch else none

end Sys2Proof.Machine
end

