-- ==== Sys2Proof/Machine/Ops.lean ====
section
/-! DEFINITION. The operations the commands share: sequencing, the dictionary store, the output
buffer, host reads, raising a fault and the reset event. -/

namespace Sys2Proof.Machine

/-- What a command or a micro-operation answers. -/
abbrev Result := Host.Outcome State Fault Refusal

/-- Micro-operations happen in the order the pseudocode lists them (R49): go on with the next one
only from a next state. -/
def andThen (r : Result) (f : State → Result) : Result :=
  match r with
  | .next s => f s
  | .fault e => .fault e
  | .refused e => .refused e

/-! ### The dictionary store (R20, R41) -/

/-- A serialization of a phrase, injective on sequences of values 0 to 15 (R100): hexadecimal digits
after a leading 1 (DESIGN CHOICE, log entry 5). It only orders the pairs of the store; keys are
compared by `=`. -/
def Phrase.key (p : Phrase) : Nat := p.foldl (fun n s => 16 * n + s.toNat) 1

/-- The canonical form of the dictionary store: keys strictly rising. No pair stands for `absent`,
which is what an unlisted key reads as. -/
abbrev Dict.wf (d : Dict) : Prop := (d.map fun e => Phrase.key e.1).Pairwise (· < ·)

/-- `MemRead(DICT, key)`: the code stored for `key`, or absent. Keys are equal when the whole
sequences are (R41). -/
def Dict.read : Dict → Phrase → Option Nat
  | [], _ => none
  | (k, c) :: rest, key => if k = key then some c else Dict.read rest key

/-- `MemWrite(DICT, key, code)`: the map with `key` mapped to `code`, in canonical form (R41). -/
def Dict.write : Dict → Phrase → Nat → Dict
  | [], key, code => [(key, code)]
  | (k, c) :: rest, key, code =>
    if k = key then (key, code) :: rest
    else if Phrase.key key < Phrase.key k then (key, code) :: (k, c) :: rest
    else (k, c) :: Dict.write rest key code

/-- The stores of the block are in canonical form: DICT as above, and ACC holds no bit at or beyond
NBITS (R26). OUT and PHRASE are sequences, which have one form. -/
abbrev Memory.wf (s : State) : Prop := Dict.wf s.dict ∧ s.acc < 2 ^ s.nbits

/-! ### What the host reads -/

/-- `MemRead(OUT, i)`: byte `i`, or no value at all at or beyond `len(OUT)` (R42). -/
def outRead (s : State) (i : Nat) : Option Byte := s.out[i]?

/-- What a port returns: a whole register (R40, R47), or a byte of OUT. -/
def readPort (p : Port) (s : State) : Option HostValue :=
  match p with
  | .width => some (.width s.width)
  | .height => some (.height s.height)
  | .delayMs => some (.delayMs s.delayMs)
  | .lzState => some (.lzState s.lzState.number)
  | .fault => some (.fault s.fault)
  | .faultCmd => some (.faultCmd s.faultCmd)
  | .symCount => some (.symCount s.symCount)
  | .outLength => some (.outLength s.out.length)
  | .out i => (outRead s i).map .outByte

/-- A host read returns its value and changes nothing of the block (R42, R47); a read of OUT past
its end is refused. Reads are served while the block is frozen too (R209). -/
def hostRead (p : Port) (s : State) : Result :=
  match readPort p s with
  | some v => .next { s with reply := some v }
  | none => .refused .outReadPastEnd

/-! ### Faults: entry, and the reset event, the only way out -/

/-- `raise F(cmd)`: FAULT and FAULT_CMD are written, "nothing else changes" (R208). -/
def raise (cause : FaultCause) (cmd : CmdWord) (s : State) : State :=
  { s with fault := cause.code, faultCmd := cmd }

/-- The reset event: every piece of state of the block to its reset value; nothing survives but the
parameters (R230). What is not the block's stays: CMD_INDEX, which only commands move (R24), the
host's own plan, and what the host has read (DEDUCED, log entry 9). -/
def resetEvent (s : State) : State :=
  { State.reset with cmdIndex := s.cmdIndex, input := s.input, reply := s.reply, params := s.params }

/-! ### Taking the host's next input -/

/-- The head of the input is taken. -/
def takeInput (rest : List HostInput) (s : State) : State := { s with input := rest }

/-- The head of the input is taken and it is a command: CMD_INDEX is "incremented by exactly 1 after
every command whether the command was executed, faulted or discarded" (R24). -/
def takeCommand (rest : List HostInput) (s : State) : State :=
  { s with input := rest, cmdIndex := s.cmdIndex + 1 }

end Sys2Proof.Machine
end

