-- ==== Sys2Proof/Machine/Command.lean ====
section
/-! DEFINITION. The common execution rule of every command (R170), in two parts: a word that is a
command, and a word that is none. -/

namespace Sys2Proof.Machine

/-- Steps 1, 3, 4 and 5 of R170 for the command `i`, "and the first that applies ends the command":
a frozen block discards it; a command not legal in LZ_STATE raises SequenceError; the command's own
check raises its fault; otherwise its pseudocode is performed. A raise records the word being
executed, which is `encode i` because every command has exactly one word (R61; DEDUCED, log entry 4). -/
def execute (i : Instr) (check : State → Option FaultCause) (perform : State → Result) (s : State) :
    Result :=
  if s.fault ≠ 0 then .next s
  else if legalIn i s.lzState = false then .next (raise .sequenceError (encode i) s)
  else
    match check s with
    | some cause => .next (raise cause (encode i) s)
    | none => perform s

/-- Steps 1 and 2 of R170 for a word that matches no row: discarded by a frozen block, else
IllegalCommand in any LZ_STATE (R63, R202). -/
def illegalCommand (w : CmdWord) (s : State) : Result :=
  if s.fault ≠ 0 then .next s else .next (raise .illegalCommand w s)

/-- A command with no check of its own (step 4 of R170). -/
def noCheck (_ : State) : Option FaultCause := none

end Sys2Proof.Machine
end

