-- ==== Sys2Proof/Machine/Configure.lean ====
section
/-! DEFINITION. The register-write commands CFGDIM and CFGDLY (R185). -/

namespace Sys2Proof.Machine

/-- `WIDTH <- width`, `HEIGHT <- height` (R171). -/
def setDimensions (width height : BitVec 16) (s : State) : State :=
  { s with width := width, height := height }

/-- `DELAY_MS <- delay_ms` (R172). -/
def setDelay (delayMs : BitVec 16) (s : State) : State := { s with delayMs := delayMs }

/-- CFGDIM (R171). -/
def execCfgdim (width height : BitVec 16) (s : State) : Result :=
  execute (.cfgdim width height) (fun _ => dimensionsCheck width height)
    (fun s => .next (setDimensions width height s)) s

/-- CFGDLY (R172). -/
def execCfgdly (delayMs : BitVec 16) (s : State) : Result :=
  execute (.cfgdly delayMs) noCheck (fun s => .next (setDelay delayMs s)) s

end Sys2Proof.Machine
end

