-- ==== Sys2Proof/Machine/Dictionary.lean ====
section
/-! DEFINITION. The Phrase and Dictionary unit (spec/41_dictionary.md). -/

namespace Sys2Proof.Machine

/-- EXTEND: "non-destructive append" (R95). -/
def extend (p : Phrase) (s : ColorIndex) : Phrase := p ++ [s]

/-- LOOKUP: the code stored for the key, or absent (R96). -/
def lookup (d : Dict) (key : Phrase) : Option Nat := Dict.read d key

/-- INSERT: DICT now maps `key` to `code`, all other entries unchanged (R97). -/
def insertEntry (key : Phrase) (code : Nat) (s : State) : State :=
  { s with dict := Dict.write s.dict key code }

/-- CODEOF: the raw index of a phrase of length 1, else the dictionary-assigned code; `none` where
the manual's precondition does not hold (R98). -/
def codeOf (d : Dict) : Phrase → Option Nat
  | [] => none
  | [s] => some s.toNat
  | s :: t :: rest => Dict.read d (s :: t :: rest)

end Sys2Proof.Machine
end

