-- ==== Sys2Proof/Machine/Packer.lean ====
section
/-! DEFINITION. The Bit Packer (spec/42_bit_packer.md). -/

namespace Sys2Proof.Machine

/-- The accumulator after a word of `width` bits is added above the bits it holds (R105). -/
def pushBits (value width : Nat) (s : State) : State :=
  { s with acc := s.acc + (value <<< s.nbits), nbits := s.nbits + width }

/-- The stream in the accumulator is closed: FINISH runs only after LZW_END has made LZ_STATE Flushed,
and the next LZW_INIT empties the accumulator before it pushes Clear (R107, R120, R125; DEDUCED, log
entry 16). -/
abbrev StreamClosed (s : State) : Prop := s.lzState = .flushed ∧ s.nbits ≠ 0

/-- PUSHWORD: refused after FINISH (93_implementation_defined.md U18), and where its precondition
fails, `width` at least 1 (whose refusal is DEDUCED, log entry 6) and `value < 2^width` (R105). -/
def pushWord (value width : Nat) (s : State) : Result :=
  if StreamClosed s then .refused .pushAfterFinish
  else if 1 ≤ width ∧ value < 2 ^ width then .next (pushBits value width s)
  else .refused .wordDoesNotFit

/-- The width would shrink under bits that have been pushed: "`setWidth` to a smaller width" within an
encode (93_implementation_defined.md U18; that an empty accumulator is outside an encode is DEDUCED, log
entry 16). -/
abbrev Narrows (width : Nat) (s : State) : Prop := width < s.curWidth ∧ s.nbits ≠ 0

/-- SETWIDTH, whose operand is "a natural number ≥ 5" (R106; its refusal is DEDUCED, log entry
6), refused where it would narrow the width within an encode (U18). -/
def setWidth (width : Nat) (s : State) : Result :=
  if width < initWidth then .refused .widthBelowInitial
  else if Narrows width s then .refused .widthNarrowed
  else .next { s with curWidth := width }

/-- The zero bits FINISH adds at the most significant end (R107). -/
def padding (nbits : Nat) : Nat := (8 - nbits % 8) % 8

/-- `(ACC >> (8*j)) mod 256` for j = 0, 1, ..., n-1 (R107). -/
def packedBytes (acc n : Nat) : List Byte := (List.range n).map fun j => BitVec.ofNat 8 (acc >>> (8 * j))

/-- The state FINISH leaves: NBITS rounded up to a multiple of 8, ACC unchanged (R107). -/
def padToByte (s : State) : State := { s with nbits := s.nbits + padding s.nbits }

/-- FINISH: the padded state and the bytes of the stream (R107). -/
def finish (s : State) : State × List Byte :=
  (padToByte s, packedBytes (padToByte s).acc ((padToByte s).nbits / 8))

end Sys2Proof.Machine
end

