-- ==== Sys2Proof/Machine/Lzw.lean ====
section
/-! DEFINITION. The LZW Encoder state machine (spec/43_lzw_encoder.md). -/

namespace Sys2Proof.Machine

/-- `EMIT(code)` abbreviates `PUSHWORD(code, CUR_WIDTH)` (preamble of spec/43_lzw_encoder.md). -/
def emit (code : Nat) (s : State) : Result := pushWord code s.curWidth s

/-- The fresh entities of an encode: the first five lines of LZW_INIT (R120). -/
def freshEntities (s : State) : State :=
  { s with phrase := [], dict := [], nextCode := firstCode, acc := 0, nbits := 0 }

/-- LZW_INIT: fresh entities, width 5, Clear pushed, LZ_STATE Empty (R120). -/
def lzwInit (s : State) : Result :=
  andThen (setWidth initWidth (freshEntities s)) fun s1 =>
    andThen (emit clearCode s1) fun s2 =>
      .next { s2 with lzState := .empty }

/-- The first-symbol branch: the symbol is buffered, nothing is emitted (R121). -/
def lzwFirst (c : ColorIndex) (s : State) : State :=
  { s with phrase := [c], lzState := .accumulating }

/-- The match branch: PHRASE is extended, nothing is emitted (R122). -/
def lzwMatch (c : ColorIndex) (s : State) : State := { s with phrase := extend s.phrase c }

/-- The width-growth step: one wider "the moment" the incremented NEXT_CODE no longer fits (R124). -/
def growWidth (s : State) : Result :=
  if needsWidth s.nextCode s.curWidth then setWidth (s.curWidth + 1) s else .next s

/-- The mismatch branch: emit the old phrase's code at the old width, insert the candidate,
increment NEXT_CODE, grow the width, restart the phrase (R123). Its overflow test is
`overflowCheck`, which the command makes before it (R128, R206). -/
def lzwMismatch (c : ColorIndex) (s : State) : Result :=
  match codeOf s.dict s.phrase with
  | none => .refused .phraseWithoutCode
  | some code =>
    andThen (emit code s) fun s1 =>
      andThen (growWidth { insertEntry (extend s.phrase c) s.nextCode s1 with nextCode := s.nextCode + 1 })
        fun s2 => .next { s2 with phrase := [c] }

/-- LZW_STEP: the three branches, "chosen in this order" (R121, R122, R123). -/
def lzwStep (c : ColorIndex) (s : State) : Result :=
  if s.phrase = [] then .next (lzwFirst c s)
  else if (lookup s.dict (extend s.phrase c)).isSome then .next (lzwMatch c s)
  else lzwMismatch c s

/-- The symbol takes the mismatch branch (R123). -/
def mismatches (c : ColorIndex) (s : State) : Bool :=
  !(decide (s.phrase = [])) && (lookup s.dict (extend s.phrase c)).isNone

/-- The own check of PIX and SYM: DictionaryOverflow, "inside the mismatch branch of LZW_STEP and
before anything is emitted or inserted" (R206; DEDUCED, log entry 7). -/
def overflowCheck (c : ColorIndex) (s : State) : Option FaultCause :=
  if mismatches c s && wouldOverflow s then some .dictionaryOverflow else none

/-- The first half of LZW_END: the buffered phrase's code, if there is a phrase (R125, R126). -/
def emitPhrase (s : State) : Result :=
  if s.phrase = [] then .next s
  else
    match codeOf s.dict s.phrase with
    | none => .refused .phraseWithoutCode
    | some code => emit code s

/-- LZW_END: the buffered phrase's code, then EOI, both at the width as it stands (R125). -/
def lzwEnd (s : State) : Result :=
  andThen (emitPhrase s) fun s1 =>
    andThen (emit eoiCode s1) fun s2 =>
      .next { s2 with lzState := .flushed }

end Sys2Proof.Machine
end

