-- ==== Sys2Proof/Machine/Operands.lean ====
section
/-! DEFINITION. The operand forms that compute something. Every other operand is its field, taken
unsigned and unchanged (R62). -/

namespace Sys2Proof.Machine

/-- `if channel != 0 then weight else 0` (R90). -/
def channelBit (channel : Byte) (weight : ColorIndex) : ColorIndex :=
  if channel ≠ 0 then weight else 0

/-- INDEX, the Color Indexer (R90). -/
def index (red green blue opacity : Byte) : ColorIndex :=
  if opacity = 0 then transparentIndex
  else channelBit red 4 ||| channelBit green 2 ||| channelBit blue 1

end Sys2Proof.Machine
end

