-- ==== Sys2Proof/Machine/Encode.lean ====
section
/-! DEFINITION. The commands that run an encode: START, PIX, SYM. -/

namespace Sys2Proof.Machine

/-- `SYMCOUNT <- 0`, `OUT <- []` (R173). -/
def clearResult (s : State) : State := { s with symCount := 0, out := [] }

/-- `SYMCOUNT <- min(SYMCOUNT + 1, 2^32 - 1)` (R174, R175). -/
def countSymbol (s : State) : State := { s with symCount := countUp s.symCount }

/-- `LZW_STEP(s)`, then the symbol is counted (R174, R175). -/
def supplySymbol (c : ColorIndex) (s : State) : Result :=
  andThen (lzwStep c s) fun s1 => .next (countSymbol s1)

/-- START: LZW_INIT, then SYMCOUNT and OUT cleared (R173). -/
def execStart (s : State) : Result :=
  execute .start noCheck (fun s => andThen (lzwInit s) fun s1 => .next (clearResult s1)) s

/-- PIX: the pixel's index is supplied as a symbol (R174). -/
def execPix (red green blue opacity : Byte) (s : State) : Result :=
  execute (.pix red green blue opacity) (overflowCheck (index red green blue opacity))
    (supplySymbol (index red green blue opacity)) s

/-- SYM: the colour index is supplied directly (R175). -/
def execSym (c : ColorIndex) (s : State) : Result :=
  execute (.sym c) (overflowCheck c) (supplySymbol c) s

end Sys2Proof.Machine
end

