-- ==== Sys2Proof/Machine/Container.lean ====
section
/-! DEFINITION. The Container Assembler (spec/44_container.md): pure functions that return bytes. -/

namespace Sys2Proof.Machine

/-- `u16le(v)` = `[v mod 256, floor(v / 256)]` (R43, R72). -/
def u16le (v : BitVec 16) : List Byte := [v.extractLsb' 0 8, v.extractLsb' 8 8]

/-- HEADER: ASCII `GIF89a` (R140). -/
def header : List Byte := [0x47, 0x49, 0x46, 0x38, 0x39, 0x61]

/-- LSD, the Logical Screen Descriptor: packed byte 0b10000011, background index, aspect ratio
(R141). -/
def lsd (width height : BitVec 16) : List Byte :=
  u16le width ++ u16le height ++ [0x83, backgroundIndex, 0x00]

/-- Red, green, blue of one entry (R142). -/
def rgbBytes (e : Rgb) : List Byte := [e.red, e.green, e.blue]

/-- GCT, the Global Color Table: 16 entries of 3 bytes, of the parameter (R142). -/
def gctBytes (gct : Vector Rgb 16) : List Byte := gct.toList.flatMap rgbBytes

/-- `floor(delayMs / 10)`, the delay in hundredths of a second (R143, R182). -/
def delayHundredths (delayMs : BitVec 16) : BitVec 16 := delayMs / 10

/-- GCE, the Graphic Control Extension (R143). -/
def gce (delayMs : BitVec 16) : List Byte :=
  [0x21, 0xF9, 0x04, 0x01] ++ u16le (delayHundredths delayMs) ++
    [transparentIndex.setWidth 8, 0x00]

/-- IMGDESC, the Image Descriptor: left 0, top 0, no flags (R144). -/
def imgDesc (width height : BitVec 16) : List Byte :=
  [0x2C] ++ u16le 0 ++ u16le 0 ++ u16le width ++ u16le height ++ [0x00]

/-- The loop of SUBBLOCKS, at most `fuel` turns: while bytes are left, a length byte
`min(255, L - i)` and that many bytes (R146). -/
def dataBlocks : Nat → List Byte → List Byte
  | 0, _ => []
  | _ + 1, [] => []
  | fuel + 1, b :: rest =>
    BitVec.ofNat 8 (min subBlockMax (b :: rest).length) :: (b :: rest).take subBlockMax ++
      dataBlocks fuel ((b :: rest).drop subBlockMax)

/-- SUBBLOCKS: greedy sub-blocks, then the zero-length terminator (R73, R146). A turn of the loop
takes at least one byte, so `data.length` turns are enough (DESIGN CHOICE, log entry 18). -/
def subBlocks (data : List Byte) : List Byte := dataBlocks data.length data ++ [0x00]

/-- IMGDATA: the LZW minimum code size byte, then the sub-blocks (R145). -/
def imgData (data : List Byte) : List Byte := BitVec.ofNat 8 minCodeSize :: subBlocks data

/-- TRAILER: the byte `3B` (R147). -/
def trailer : List Byte := [0x3B]

/-- ASSEMBLE: the complete file (R69, R148). -/
def assemble (gct : Vector Rgb 16) (width height delayMs : BitVec 16) (data : List Byte) : List Byte :=
  header ++ lsd width height ++ gctBytes gct ++ gce delayMs ++ imgDesc width height ++
    imgData data ++ trailer

end Sys2Proof.Machine
end

