-- ==== Sys2Proof/Machine/Finish.lean ====
section
/-! DEFINITION. The commands that end an encode: FLUSH and SAVE. -/

namespace Sys2Proof.Machine

/-- `OUT <- FINISH()` (R176). -/
def deliverStream (s : State) : State := { (finish s).1 with out := (finish s).2 }

/-- `data <- FINISH()`, `OUT <- ASSEMBLE(WIDTH, HEIGHT, DELAY_MS, data)` (R177). -/
def deliverFile (s : State) : State :=
  { (finish s).1 with out := assemble s.params.gct s.width s.height s.delayMs (finish s).2 }

/-- FLUSH (R176). -/
def execFlush (s : State) : Result :=
  execute .flush noCheck (fun s => andThen (lzwEnd s) fun s1 => .next (deliverStream s1)) s

/-- SAVE (R177). -/
def execSave (s : State) : Result :=
  execute .save pixelCountCheck (fun s => andThen (lzwEnd s) fun s1 => .next (deliverFile s1)) s

end Sys2Proof.Machine
end

