-- ==== Sys2Proof/Machine/Dispatch.lean ====
section
/-! DEFINITION. The meaning of every command, one arm per constructor. -/

namespace Sys2Proof.Machine

/-- The meaning of a command presented to the block in state `s` (R170 to R177). -/
def exec (i : Instr) (s : State) : Host.Outcome State Fault Refusal :=
  match i with
  | .cfgdim width height => Sys2Proof.Machine.execCfgdim width height s
  | .cfgdly delayMs => Sys2Proof.Machine.execCfgdly delayMs s
  | .start => Sys2Proof.Machine.execStart s
  | .pix red green blue opacity => Sys2Proof.Machine.execPix red green blue opacity s
  | .sym c => Sys2Proof.Machine.execSym c s
  | .flush => Sys2Proof.Machine.execFlush s
  | .save => Sys2Proof.Machine.execSave s

end Sys2Proof.Machine
end

