-- ==== Sys2Proof/Machine/Present.lean ====
section
/-! DEFINITION. What the block does with what the host presents. -/

namespace Sys2Proof.Machine

/-- A command word is presented: it is decoded (step 2 of R170) and executed. -/
def presentWord (w : CmdWord) (s : State) : Result :=
  match decode w with
  | some i => exec i s
  | none => illegalCommand w s

/-- One thing the host does: a command, the reset event between two commands (R230), or a read
(R42). -/
def serve (e : HostInput) (rest : List HostInput) (s : State) : Result :=
  match e with
  | .command w => presentWord w (takeCommand rest s)
  | .reset => .next (resetEvent (takeInput rest s))
  | .read p => hostRead p (takeInput rest s)

/-- The host presents nothing: the block "waits for the next" command and nothing changes (R24;
DEDUCED, log entry 3). -/
def waitForHost (s : State) : Result := .next s

/-- The input with a command word placed before everything else. -/
def placeCommand (w : CmdWord) (s : State) : State := { s with input := .command w :: s.input }

/-- The command word a table number stands for, its bits above `nbits` zero and those above bit 39,
which a command word does not have, dropped (R60). -/
def tableCommand (nbits w : Nat) : CmdWord := BitVec.ofNat 40 (w % 2 ^ nbits)

end Sys2Proof.Machine
end

