-- ==== Sys2Proof/Machine/Step.lean ====
section
/-! DEFINITION. One step: the next thing the host does, to completion (R49, R232). -/

namespace Sys2Proof.Machine

/-- One step of the machine. Commands take effect one at a time, completely, in the order the host
issues them (R49). -/
def step (s : State) : Host.Outcome State Fault Refusal :=
  match s.input with
  | [] => waitForHost s
  | e :: rest => serve e rest s

/-- `s` with the command word numbered `w` by the opcode table as the next thing the host does. -/
def State.withFetchWord (s : State) (nbits w : Nat) : State := placeCommand (tableCommand nbits w) s

end Sys2Proof.Machine
end

