-- ==== Sys2Proof/Machine/Stream.lean ====
section
/-! DEFINITION. What the manual says of the encoded stream as a whole, apart from the machine that
makes it: the width schedule (R67), the stream as one number (R68), the function ENCODE (R127), the
streaming form of the packer (R109), the (prefix code, symbol) form of the dictionary (R30), and the
reader of spec/95_test_vectors.md section 5. No step of the machine calls anything of this file;
statements compare the machine with it. -/

namespace Sys2Proof.Machine

/-- `bitlen(n) = floor(log2(n)) + 1` (R67). -/
def bitlen (n : Nat) : Nat := Nat.log2 n + 1

/-- `W(k) = max(5, bitlen(17 + k))`, the width of data code k, counted from 1 (R67). -/
def dataWidth (k : Nat) : Nat := max 5 (bitlen (17 + k))

/-- The bits of Clear and of the first `k` data codes (R67, R110). -/
def bitsThrough : Nat → Nat
  | 0 => 5
  | k + 1 => bitsThrough k + dataWidth (k + 1)

/-- `N = sum over i of c_i << (w_0 + ... + w_(i-1))`, from bit `offset` on (R68). -/
def streamNumber (offset : Nat) : List (Nat × Nat) → Nat
  | [] => 0
  | (c, w) :: rest => (c <<< offset) + streamNumber (offset + w) rest

/-- `B = w_0 + ... + w_m` (R68). -/
def streamBits (codes : List (Nat × Nat)) : Nat := (codes.map Prod.snd).sum

/-- `byte j = (N >> 8j) mod 256 for j = 0 to ceil(B / 8) - 1` (R68). -/
def streamBytes (codes : List (Nat × Nat)) : List Byte :=
  (List.range ((streamBits codes + 7) / 8)).map fun j =>
    BitVec.ofNat 8 (streamNumber 0 codes >>> (8 * j))

/-- The data codes of the symbols that follow a buffered non-empty phrase, the last of them the code
of the phrase left at the end of input (R122, R123, R125). No width and no bit occurs here. -/
def dataCodes (d : Dict) (next : Nat) (phrase : Phrase) : List ColorIndex → List Nat
  | [] => [(codeOf d phrase).getD 0]
  | s :: rest =>
    if (lookup d (extend phrase s)).isSome then dataCodes d next (extend phrase s) rest
    else (codeOf d phrase).getD 0 ::
      dataCodes (Dict.write d (extend phrase s) next) (next + 1) [s] rest

/-- The data codes of a whole input: none for no input (R126), else from the first symbol (R121). -/
def allDataCodes : List ColorIndex → List Nat
  | [] => []
  | s :: rest => dataCodes [] 18 [s] rest

/-- The data codes with their widths, from data code `k` on (R67). -/
def withWidths (k : Nat) : List Nat → List (Nat × Nat)
  | [] => []
  | c :: rest => (c, dataWidth k) :: withWidths (k + 1) rest

/-- All emitted codes with their widths: Clear at width 5, the data codes, EOI at the width of the
last data code, or 5 when there is none (R67). -/
def emittedCodes (symbols : List ColorIndex) : List (Nat × Nat) :=
  (16, 5) :: withWidths 1 (allDataCodes symbols) ++ [(17, dataWidth (allDataCodes symbols).length)]

/-- `ENCODE(symbols)`, the byte sequence (R127), by the stream layout of R68. -/
def encodeSymbols (symbols : List ColorIndex) : List Byte := streamBytes (emittedCodes symbols)

/-- No DictionaryOverflow occurs: the last NEXT_CODE, 18 + m with m + 1 data codes (R132), stays
below 2^MAX_WIDTH (R128). -/
def FitsLimit (limit : WidthLimit) (symbols : List ColorIndex) : Prop :=
  match limit with
  | .bounded m => 17 + (allDataCodes symbols).length < 2 ^ m
  | .unbounded => True

/-- The state of the streaming packer of R109: the bytes emitted so far, and the residual bits,
"fewer than 8". -/
structure Streamer where
  bytes : List Byte
  residue : Nat
  count : Nat
deriving DecidableEq, Repr

/-- Push a word and emit "byte j of the result as soon as NBITS ≥ 8(j + 1)" (R109). -/
def Streamer.push (st : Streamer) (word : Nat × Nat) : Streamer :=
  { bytes := st.bytes ++
      packedBytes (st.residue + (word.1 <<< st.count)) ((st.count + word.2) / 8)
    residue := (st.residue + (word.1 <<< st.count)) >>> (8 * ((st.count + word.2) / 8))
    count := (st.count + word.2) % 8 }

/-- "at FINISH emit the residual bits zero-padded as a last byte when there are any" (R109). -/
def Streamer.finish (st : Streamer) : List Byte :=
  if st.count = 0 then st.bytes else st.bytes ++ [BitVec.ofNat 8 st.residue]

/-- The streaming packer at the start of an encode. -/
def Streamer.start : Streamer := { bytes := [], residue := 0, count := 0 }

/-- `TRANS(c, s)`: the code of the entry whose prefix has code `c` and whose last symbol is `s`
(R30). -/
def transRead (d : Dict) (c : Nat) (s : ColorIndex) : Option Nat :=
  (d.find? fun e => codeOf d e.1.dropLast == some c && e.1.getLast? == some s).map Prod.snd

/-- A table entry of the reader: a literal, or an entry it has added. -/
def readerEntry (table : List (Nat × Phrase)) (c : Nat) : Option Phrase :=
  if c < 16 then some [BitVec.ofNat 4 c] else table.lookup c

/-- What the reader makes of code `c`: its entry, or `prev ++ [prev[0]]` when `c` is the entry it is
about to add. -/
def readerExpand (table : List (Nat × Phrase)) (next : Nat) (prev : Phrase) (c : Nat) :
    Option Phrase :=
  match readerEntry table c with
  | some e => some e
  | none => if c = next ∧ prev ≠ [] then some (prev ++ prev.take 1) else none

/-- The loop of the reader, at most `fuel` data codes; `prev` is `[]` before the first. It answers
the symbols and the bit position behind EOI. -/
def readerLoop (n : Nat) : Nat → (pos k : Nat) → List (Nat × Phrase) → Nat → Phrase →
    Option (List ColorIndex × Nat)
  | 0, _, _, _, _, _ => none
  | fuel + 1, pos, k, table, next, prev =>
    let c := (n >>> pos) % 2 ^ dataWidth k
    if c = 17 then some ([], pos + dataWidth k)
    else
      match readerExpand table next prev c with
      | none => none
      | some e =>
        let more :=
          if prev = [] then readerLoop n fuel (pos + dataWidth k) (k + 1) table next e
          else readerLoop n fuel (pos + dataWidth k) (k + 1)
            ((next, prev ++ e.take 1) :: table) (next + 1) e
        more.map fun r => (e ++ r.1, r.2)

/-- The stream as the natural number N: "byte j contributes byte_j << 8j". -/
def numberOfBytes : List Byte → Nat
  | [] => 0
  | b :: rest => b.toNat + 256 * numberOfBytes rest

/-- DECODE of section 5: Clear, the loop, and "the remaining bits of N are 0 and fewer than 8". The
number of bits bounds the number of codes. The reader takes EOI at the width of the data code that
would follow, so where that is one bit wider than EOI (R67) it also takes one zero bit behind EOI,
which may lie behind the last byte (DEDUCED, log entry 19). -/
def readStream (bytes : List Byte) : Option (List ColorIndex) :=
  let n := numberOfBytes bytes
  let bits := 8 * bytes.length
  if n % 2 ^ 5 = 16 then
    match readerLoop n bits 5 1 [] 18 [] with
    | none => none
    | some (symbols, pos) =>
      if n >>> pos = 0 ∧ bits < pos + 8 then some symbols else none
  else none

end Sys2Proof.Machine
end

