-- ==== Sys2Proof/Safety.lean ====
section
/-! DEFINITION. What counts as a safe run: a block that can execute (`Ready`), a finished and a
successful run (R237), runs of commands, and the invariant of the block (R14, R22, R26 and the rules
they rest on). -/

namespace Sys2Proof.Machine

/-- The block is not frozen (R209) and an encode is running, so PIX, SYM, FLUSH and SAVE are legal
(R170). -/
abbrev Ready (s : State) : Prop := s.fault = 0 ∧ s.lzState.running = true

/-- "A run is successful when FAULT = 0 and LZ_STATE = Flushed" (R237). -/
abbrev Successful (s : State) : Prop := s.fault = 0 ∧ s.lzState = .flushed

/-- The host's input is a command, and no read and no reset event. -/
def HostInput.isCommand : HostInput → Bool
  | .command _ => true
  | .reset => false
  | .read _ => false

/-- "A run of a command list is over when every command of the list has been presented": no command is
left among what the host does, "whether the host has read OUT" or not (R237). -/
abbrev RunOver (s : State) : Prop := s.input.all (fun e => !e.isCommand) = true

/-- "Its result is (LZ_STATE, FAULT, FAULT_CMD, OUT)" (R237). -/
def runResult (s : State) : LzState × BitVec 3 × CmdWord × List Byte :=
  (s.lzState, s.fault, s.faultCmd, s.out)

/-- The command supplies the symbol `c`: `SYM c` (R175), or a `PIX` whose index is `c` (R174). -/
def Supplies (i : Instr) (c : ColorIndex) : Prop :=
  i = .sym c ∨ ∃ red green blue opacity,
    i = .pix red green blue opacity ∧ index red green blue opacity = c

/-- The command is legal only while an encode runs: PIX, SYM, FLUSH, SAVE (R170). -/
def NeedsEncode (i : Instr) : Prop := (∃ c, Supplies i c) ∨ i = .flush ∨ i = .save

/-- The illegal command words of R63: an opcode of 0x00 or 0x08 to 0xFF, or a must-be-zero bit of R60
set. -/
def IllegalWord (w : CmdWord) : Prop :=
  w.toNat / 2 ^ 32 = 0 ∨ 8 ≤ w.toNat / 2 ^ 32 ∨
  (w.toNat / 2 ^ 32 = 2 ∧ w.toNat / 2 ^ 16 % 2 ^ 16 ≠ 0) ∨
  ((w.toNat / 2 ^ 32 = 3 ∨ w.toNat / 2 ^ 32 = 6 ∨ w.toNat / 2 ^ 32 = 7) ∧ w.toNat % 2 ^ 32 ≠ 0) ∨
  (w.toNat / 2 ^ 32 = 5 ∧ w.toNat / 2 ^ 4 % 2 ^ 28 ≠ 0)

/-- Execute commands one after the other, each to completion (R49). -/
def execAll : List Instr → State → Result
  | [], s => .next s
  | i :: rest, s => andThen (exec i s) (execAll rest)

/-- Take `n` steps. -/
def stepMany : Nat → State → Result
  | 0, s => .next s
  | n + 1, s => andThen (step s) (stepMany n)

/-- A phrase whose code is defined: of length 1, or a key of DICT (R22 item 4, R98). -/
def Coded (d : Dict) (p : Phrase) : Prop := p.length = 1 ∨ ∃ c, Dict.read d p = some c

/-- The width limit is respected: "With MAX_WIDTH = m it never exceeds m" (R25). -/
def WithinLimit (limit : WidthLimit) (width : Nat) : Prop :=
  match limit with
  | .bounded m => width ≤ m
  | .unbounded => True

/-- The items of R22 about DICT and NEXT_CODE. -/
structure DictInv (d : Dict) (next : Nat) : Prop where
  /-- Item 1: the codes in the range of DICT are exactly 18, ..., NEXT_CODE - 1. -/
  codes : ∀ c, (∃ p, Dict.read d p = some c) ↔ 18 ≤ c ∧ c < next
  /-- Item 1: "no two phrases share a code". -/
  injective : ∀ p q c, Dict.read d p = some c → Dict.read d q = some c → p = q
  /-- Item 2: the number of entries is NEXT_CODE - 18. -/
  entries : d.length + 18 = next
  /-- Item 3: "Every key of DICT has length ≥ 2". -/
  long : ∀ p c, Dict.read d p = some c → 2 ≤ p.length
  /-- Item 3: the dictionary is prefix-closed. -/
  prefixClosed : ∀ p c, Dict.read d p = some c → Coded d p.dropLast

/-- The invariant of the block between two steps. -/
structure BlockInv (s : State) : Prop where
  /-- The stores are in canonical form (R26, R41). -/
  memory : Memory.wf s
  /-- MAX_WIDTH is a value R8 admits. -/
  params : s.params.Legal
  /-- WIDTH and HEIGHT are never 0 (R11, R12). -/
  dimensions : s.width ≠ 0 ∧ s.height ≠ 0
  /-- FAULT holds 0 or one of the five causes; 6 and 7 are never written (R201). -/
  causes : s.fault.toNat ≤ 5
  /-- FAULT_CMD keeps its reset value until a fault is raised (R16). -/
  noFaultCmd : s.fault = 0 → s.faultCmd = 0
  /-- The dictionary (R22 items 1 to 3). -/
  dict : DictInv s.dict s.nextCode
  /-- PHRASE is empty or its code is defined (R22 item 4). -/
  phrase : s.phrase = [] ∨ Coded s.dict s.phrase
  /-- CUR_WIDTH is the width of NEXT_CODE, at least 5 (R22 item 5, R25, R67). -/
  width : s.curWidth = max 5 (bitlen s.nextCode)
  /-- CUR_WIDTH does not exceed MAX_WIDTH (R25). -/
  limit : WithinLimit s.params.maxWidth s.curWidth
  /-- LZ_STATE = Empty: a fresh encode, with Clear pushed and no symbol supplied (R14, R120). -/
  empty : s.lzState = .empty →
    s.phrase = [] ∧ s.dict = [] ∧ s.acc = 16 ∧ s.nbits = 5 ∧ s.symCount = 0
  /-- LZ_STATE = Accumulating: a phrase is buffered (R14). -/
  accumulating : s.lzState = .accumulating → s.phrase ≠ []
  /-- While an encode runs, NBITS counts Clear and one data code per insertion (R67, R132). -/
  bits : s.lzState.running = true → s.nbits = bitsThrough (s.nextCode - 18)
  /-- While symbols are counted exactly, there are fewer insertions than symbols (R132). -/
  counted : s.lzState = .accumulating → s.symCount.toNat < 2 ^ 32 - 1 →
    s.nextCode < s.symCount.toNat + 18
  /-- "OUT is non-empty only when LZ_STATE = Flushed" (R42). -/
  output : s.lzState ≠ .flushed → s.out = []

end Sys2Proof.Machine
end

