-- ==== Sys2Proof/Certificates/Slice0/Obligations.lean ====
section
/-! DEFINITION. The statements for the provers. Each is named for what it says; the rules it rests on
are in its docstring and in `OBLIGATIONS.json`. A premise `BlockInv s` rules out states no run reaches;
`ResetStateMeetsInvariant` and `StepKeepsInvariant` are about it. A premise `s.fault = 0` says the
block is not frozen, `Ready s` that an encode is running as well. -/

open Sys2Proof Sys2Proof.Machine

/-! ### Results and frames of the commands -/

/-- R171, R204: CFGDIM writes WIDTH and HEIGHT and nothing else, in every state; with a zero operand
it raises InvalidDimensions instead. -/
def Obligations.CfgdimWritesDimensionsOrFaults : Prop :=
  ∀ (w h : BitVec 16) (s : State), s.fault = 0 →
    (w ≠ 0 ∧ h ≠ 0 → exec (.cfgdim w h) s = .next { s with width := w, height := h }) ∧
    (w = 0 ∨ h = 0 → exec (.cfgdim w h) s =
      .next { s with fault := 3, faultCmd := encode (.cfgdim w h) })

/-- R172: CFGDLY writes DELAY_MS and nothing else, for every operand in every state. -/
def Obligations.CfgdlyWritesDelay : Prop :=
  ∀ (d : BitVec 16) (s : State), s.fault = 0 →
    exec (.cfgdly d) s = .next { s with delayMs := d }

/-- R173, R120: START begins a fresh encode in every state and leaves WIDTH, HEIGHT, DELAY_MS and the
fault registers as they are. -/
def Obligations.StartBeginsFreshEncode : Prop :=
  ∀ s : State, s.fault = 0 →
    exec .start s = .next { s with
      phrase := [], dict := [], nextCode := 18, curWidth := 5, acc := 16, nbits := 5
      lzState := .empty, symCount := 0, out := [] }

/-- R121: the first symbol of an encode is buffered; nothing is emitted or inserted. -/
def Obligations.FirstSymbolIsBuffered : Prop :=
  ∀ (i : Instr) (c : ColorIndex) (s : State), Supplies i c → Ready s → s.phrase = [] →
    exec i s = .next { s with
      phrase := [c], lzState := .accumulating
      symCount := BitVec.ofNat 32 (min (s.symCount.toNat + 1) (2 ^ 32 - 1)) }

/-- R122: a symbol that extends the buffered phrase to a known one changes PHRASE (and SYMCOUNT)
only. -/
def Obligations.KnownPhraseIsExtended : Prop :=
  ∀ (i : Instr) (c : ColorIndex) (s : State) (k : Nat), Supplies i c → Ready s →
    s.phrase ≠ [] → Dict.read s.dict (s.phrase ++ [c]) = some k →
    exec i s = .next { s with
      phrase := s.phrase ++ [c]
      symCount := BitVec.ofNat 32 (min (s.symCount.toNat + 1) (2 ^ 32 - 1)) }

/-- R123, R206: a mismatch that would push CUR_WIDTH above MAX_WIDTH raises DictionaryOverflow before
anything is emitted or inserted. Any other emits the old phrase's code at the old width, inserts the
candidate under NEXT_CODE, increments NEXT_CODE, grows the width when the incremented NEXT_CODE needs
it, and restarts the phrase; every other field is unchanged. -/
def Obligations.MismatchInsertsOrOverflows : Prop :=
  ∀ (i : Instr) (c : ColorIndex) (s : State), Supplies i c → Ready s →
    s.phrase ≠ [] → Dict.read s.dict (s.phrase ++ [c]) = none →
    (2 ^ s.curWidth ≤ s.nextCode + 1 ∧ s.params.maxWidth = .bounded s.curWidth →
      exec i s = .next { s with fault := 5, faultCmd := encode i }) ∧
    (¬(2 ^ s.curWidth ≤ s.nextCode + 1 ∧ s.params.maxWidth = .bounded s.curWidth) →
      ∀ k, codeOf s.dict s.phrase = some k → k < 2 ^ s.curWidth → 5 ≤ s.curWidth →
        exec i s = .next { s with
          acc := s.acc + k * 2 ^ s.nbits, nbits := s.nbits + s.curWidth
          dict := Dict.write s.dict (s.phrase ++ [c]) s.nextCode
          nextCode := s.nextCode + 1
          curWidth := if 2 ^ s.curWidth ≤ s.nextCode + 1 then s.curWidth + 1 else s.curWidth
          phrase := [c]
          symCount := BitVec.ofNat 32 (min (s.symCount.toNat + 1) (2 ^ 32 - 1)) })

/-- R174: PIX does what SYM of the pixel's index does, but for the word a fault records. -/
def Obligations.PixActsAsSymOfItsIndex : Prop :=
  ∀ (r g b a : Byte) (s : State),
    exec (.pix r g b a) s = exec (.sym (index r g b a)) s ∨
    ∃ cause, exec (.pix r g b a) s =
        .next { s with fault := FaultCause.code cause, faultCmd := encode (.pix r g b a) } ∧
      exec (.sym (index r g b a)) s =
        .next { s with fault := FaultCause.code cause, faultCmd := encode (.sym (index r g b a)) }

/-- R176 with R125 and R107: FLUSH pushes the code of the buffered phrase, if there is one, then EOI,
pads to a byte, and delivers the bytes of the stream. Every other field is unchanged. -/
def Obligations.FlushDeliversPackedStream : Prop :=
  ∀ (s : State) (codes : List Nat), Ready s → 5 ≤ s.curWidth →
    (s.phrase = [] ∧ codes = [17] ∨
      s.phrase ≠ [] ∧ ∃ k, codeOf s.dict s.phrase = some k ∧ k < 2 ^ s.curWidth ∧ codes = [k, 17]) →
    exec .flush s = .next { s with
      acc := s.acc + streamNumber s.nbits (codes.map fun c => (c, s.curWidth))
      nbits := 8 * ((s.nbits + codes.length * s.curWidth + 7) / 8)
      lzState := .flushed
      out := (List.range ((s.nbits + codes.length * s.curWidth + 7) / 8)).map fun j =>
        BitVec.ofNat 8
          ((s.acc + streamNumber s.nbits (codes.map fun c => (c, s.curWidth))) / 2 ^ (8 * j)) }

/-- R126: with no symbol since START the stream is Clear, EOI: OUT is `30 02`. Through SAVE this case
cannot complete, the dimensions being non-zero. -/
def Obligations.EmptyInputGivesClearAndEoi : Prop :=
  ∀ s : State, s.fault = 0 →
    (∃ t, execAll [.start, .flush] s = .next t ∧
      t.out = [0x30, 0x02] ∧ t.lzState = .flushed ∧ t.nbits = 16 ∧ t.fault = 0) ∧
    (s.width ≠ 0 → s.height ≠ 0 → ∃ t, execAll [.start, .save] s = .next t ∧
      t.fault = 4 ∧ t.out = [] ∧ t.lzState = .empty)

/-- R177: with SYMCOUNT = WIDTH × HEIGHT, SAVE does what FLUSH does, and OUT is the file assembled
around FLUSH's stream from the registers as they stand. -/
def Obligations.SaveWrapsTheStreamInTheFile : Prop :=
  ∀ s : State, BlockInv s → Ready s → s.symCount.toNat = s.width.toNat * s.height.toNat →
    ∃ t, exec .flush s = .next t ∧
      exec .save s = .next { t with out := assemble s.params.gct s.width s.height s.delayMs t.out }

/-- R205: SAVE with any other count raises PixelCountMismatch and emits nothing; no other command
raises it. -/
def Obligations.SaveWithWrongCountFaults : Prop :=
  (∀ s : State, Ready s → s.symCount.toNat ≠ s.width.toNat * s.height.toNat →
    exec .save s = .next { s with fault := 4, faultCmd := encode .save }) ∧
  (∀ (i : Instr) (s t : State), i ≠ .save → s.fault = 0 → exec i s = .next t → t.fault ≠ 4)

/-- R18 and R177, derived: SAVE faults in state Empty, and whenever the counter is saturated. -/
def Obligations.CounterNeverFakesAPixelCount : Prop :=
  (∀ s : State, BlockInv s → s.fault = 0 → s.lzState = .empty →
    exec .save s = .next { s with fault := 4, faultCmd := encode .save }) ∧
  (∀ s : State, Ready s → s.symCount.toNat = 2 ^ 32 - 1 →
    exec .save s = .next { s with fault := 4, faultCmd := encode .save })

/-! ### Faults -/

/-- R203: PIX, SYM, FLUSH and SAVE outside an encode raise SequenceError; CFGDIM, CFGDLY and START
never do. -/
def Obligations.SequenceErrorOutsideAnEncode : Prop :=
  (∀ (i : Instr) (s : State), NeedsEncode i → s.fault = 0 →
    s.lzState = .idle ∨ s.lzState = .flushed →
    exec i s = .next { s with fault := 2, faultCmd := encode i }) ∧
  (∀ (i : Instr) (s t : State), ¬NeedsEncode i → s.fault = 0 → exec i s = .next t → t.fault ≠ 2)

/-- R201, R207: which cause a command records, for each of the five and for none. -/
def Obligations.EachCauseHasItsCondition : Prop :=
  ∀ (i : Instr) (s t : State), s.fault = 0 → exec i s = .next t →
    t.fault ≠ 1 ∧ t.fault ≠ 6 ∧ t.fault ≠ 7 ∧
    (t.fault = 2 ↔ NeedsEncode i ∧ (s.lzState = .idle ∨ s.lzState = .flushed)) ∧
    (t.fault = 3 ↔ ∃ w h, i = .cfgdim w h ∧ (w = 0 ∨ h = 0)) ∧
    (t.fault = 4 ↔ i = .save ∧ s.lzState.running = true ∧
      s.symCount.toNat ≠ s.width.toNat * s.height.toNat) ∧
    (t.fault = 5 ↔ ∃ c, Supplies i c ∧ s.lzState.running = true ∧ s.phrase ≠ [] ∧
      Dict.read s.dict (s.phrase ++ [c]) = none ∧ 2 ^ s.curWidth ≤ s.nextCode + 1 ∧
      s.params.maxWidth = .bounded s.curWidth)

/-- R200: a fault is raised by the command word being executed and at no other time, only from
FAULT = 0, and it changes FAULT and FAULT_CMD and nothing else; FAULT_CMD is the word. A step that
changes FAULT otherwise is the reset event. -/
def Obligations.FaultsAreSynchronousAndPrecise : Prop :=
  ∀ s t : State, step s = .next t → t.fault ≠ s.fault →
    (∃ w rest, s.input = .command w :: rest ∧ s.fault = 0 ∧ t =
      { s with input := rest, cmdIndex := s.cmdIndex + 1, fault := t.fault, faultCmd := w }) ∨
    (∃ rest, s.input = .reset :: rest ∧ t.fault = 0)

/-- R209: while FAULT ≠ 0 every command word is discarded (the presentation is counted), the host can
still read, and only the reset event clears FAULT. -/
def Obligations.FrozenBlockDiscardsUntilReset : Prop :=
  ∀ (rest : List HostInput) (s : State), s.fault ≠ 0 →
    (∀ w, s.input = .command w :: rest →
      step s = .next { s with input := rest, cmdIndex := s.cmdIndex + 1 }) ∧
    (∀ p v, readPort p s = some v → s.input = .read p :: rest →
      step s = .next { s with input := rest, reply := some v }) ∧
    (s.input = .reset :: rest → ∃ t, step s = .next t ∧ t.fault = 0) ∧
    (∀ t, step s = .next t → (∀ more, s.input ≠ .reset :: more) →
      t.fault = s.fault ∧ t.faultCmd = s.faultCmd ∧ t.out = s.out)

/-- R63, R202: an illegal word (opcode 0x00 or 0x08 to 0xFF, or a must-be-zero bit set) matches no row,
and raises IllegalCommand in every LZ_STATE and changes nothing else. -/
def Obligations.IllegalWordFaultsInEveryState : Prop :=
  ∀ (w : CmdWord) (rest : List HostInput) (s : State), IllegalWord w → s.fault = 0 →
    s.input = .command w :: rest →
    decode w = none ∧ step s = .next { s with
      input := rest, cmdIndex := s.cmdIndex + 1, fault := 1, faultCmd := w }

/-! ### Decoding and encoding -/

/-- R60: the word of every command, as a number: the opcode in bits 39:32, every operand field where
the format puts it, every other bit 0. -/
def Obligations.WordsPlaceFieldsByFormat : Prop :=
  (∀ w h : BitVec 16, (encode (.cfgdim w h)).toNat = 0x01 * 2 ^ 32 + h.toNat * 2 ^ 16 + w.toNat) ∧
  (∀ d : BitVec 16, (encode (.cfgdly d)).toNat = 0x02 * 2 ^ 32 + d.toNat) ∧
  (encode .start).toNat = 0x03 * 2 ^ 32 ∧
  (∀ r g b a : Byte, (encode (.pix r g b a)).toNat =
    0x04 * 2 ^ 32 + r.toNat * 2 ^ 24 + g.toNat * 2 ^ 16 + b.toNat * 2 ^ 8 + a.toNat) ∧
  (∀ c : ColorIndex, (encode (.sym c)).toNat = 0x05 * 2 ^ 32 + c.toNat) ∧
  (encode .flush).toNat = 0x06 * 2 ^ 32 ∧ (encode .save).toNat = 0x07 * 2 ^ 32

/-- R61: every command decodes from its word, with every operand at every value. -/
def Obligations.DecodeOfEncodeIsTheCommand : Prop :=
  ∀ i : Instr, i.wellFormed = true → decode (encode i) = some i

/-- R61: every word that decodes is the one word of the command it decodes to. -/
def Obligations.EncodeOfDecodeIsTheWord : Prop :=
  ∀ (w : CmdWord) (i : Instr), decode w = some i → encode i = w

/-- R61: "at most one row matches". -/
def Obligations.NoWordMatchesTwoRows : Prop :=
  opcodeTable.Pairwise fun r q => ∀ w : CmdWord, ¬(r.accepts w = true ∧ q.accepts w = true)

/-- R61, R63: every word that is not illegal decodes, and no illegal word does. -/
def Obligations.IllegalWordsAreThese : Prop :=
  ∀ w : CmdWord, decode w = none ↔ IllegalWord w

/-- R60, R61: words written out from the spec's encodings (vectors E1, E6 to E9, E11, E13, E14, E15,
E18, E19) and what they are. -/
def Obligations.SampleWordsDecode : Prop :=
  decode 0x0100010002 = some (.cfgdim 2 1) ∧
  decode 0x020000FFFF = some (.cfgdly 65535) ∧
  decode 0x0300000000 = some .start ∧
  decode 0x04000000FF = some (.pix 0 0 0 255) ∧
  decode 0x04FF008007 = some (.pix 255 0 128 7) ∧
  decode 0x050000000F = some (.sym 15) ∧
  decode 0x0600000000 = some .flush ∧
  decode 0x0700000000 = some .save ∧
  decode 0x0000000000 = none ∧
  decode 0x0300000001 = none ∧
  decode 0x0500000010 = none

/-- R76, R178: `ADD` assembles to CFGDIM, CFGDLY, START, an operand above 65535 has no encoding, and
when the CFGDIM faults the two other commands are discarded. -/
def Obligations.AddExpandsToThreeCommands : Prop :=
  ∀ w h d : Nat,
    (w < 2 ^ 16 ∧ h < 2 ^ 16 ∧ d < 2 ^ 16 → (Asm.add w h d).assemble =
      some [encode (.cfgdim (BitVec.ofNat 16 w) (BitVec.ofNat 16 h)),
        encode (.cfgdly (BitVec.ofNat 16 d)), encode .start]) ∧
    (2 ^ 16 ≤ w ∨ 2 ^ 16 ≤ h ∨ 2 ^ 16 ≤ d → (Asm.add w h d).assemble = none) ∧
    ∀ s : State, s.fault = 0 → w = 0 ∨ h = 0 → w < 2 ^ 16 → h < 2 ^ 16 →
      execAll (Asm.add w h d).expand s = .next { s with
        fault := 3, faultCmd := encode (.cfgdim (BitVec.ofNat 16 w) (BitVec.ofNat 16 h)) }

/-! ### The machine as a whole -/

/-- R170, R24: when the word presented decodes to a command, a step is that command's meaning, with
the word taken from the host and counted in CMD_INDEX. -/
def Obligations.StepExecutesTheDecodedCommand : Prop :=
  ∀ (w : CmdWord) (i : Instr) (rest : List HostInput) (s : State),
    s.input = .command w :: rest → decode w = some i →
    step s = exec i { s with input := rest, cmdIndex := s.cmdIndex + 1 }

/-- R24: CMD_INDEX is incremented by exactly 1 by every command word, whatever its outcome, and by
nothing else. -/
def Obligations.CommandIndexCountsCommands : Prop :=
  ∀ s t : State, step s = .next t →
    (∀ w rest, s.input = .command w :: rest → t.cmdIndex = s.cmdIndex + 1) ∧
    ((∀ w rest, s.input ≠ .command w :: rest) → t.cmdIndex = s.cmdIndex)

/-- R31: the state after reset, for the fourteen pieces of state of R10. -/
def Obligations.ResetValuesAreTheTables : Prop :=
  State.reset.width = 320 ∧ State.reset.height = 250 ∧ State.reset.delayMs = 40 ∧
  State.reset.lzState = .idle ∧ State.reset.fault = 0 ∧ State.reset.faultCmd = 0 ∧
  State.reset.symCount = 0 ∧ State.reset.phrase = [] ∧ State.reset.dict = [] ∧
  State.reset.nextCode = 18 ∧ State.reset.curWidth = 5 ∧ State.reset.acc = 0 ∧
  State.reset.nbits = 0 ∧ State.reset.out = []

/-- R230: the reset event writes every piece of state of the block to its reset value, frozen or
not. What is the model's stays: the parameters (R230), CMD_INDEX and the host's side (the model's
choice, log entries 8 and 9). -/
def Obligations.ResetEventRestoresTheResetState : Prop :=
  ∀ (rest : List HostInput) (s : State), s.input = .reset :: rest →
    step s = .next { s with
      width := 320, height := 250, delayMs := 40, lzState := .idle, fault := 0, faultCmd := 0
      symCount := 0, phrase := [], dict := [], nextCode := 18, curWidth := 5, acc := 0, nbits := 0
      out := [], input := rest }

/-- The invariant holds right after reset (R14, R22, R26, R31). -/
def Obligations.ResetStateMeetsInvariant : Prop := BlockInv State.reset

/-- Every step keeps the invariant (R14, R22, R25, R26, R42, R67, R132, R201). -/
def Obligations.StepKeepsInvariant : Prop :=
  ∀ s t : State, BlockInv s → step s = .next t → BlockInv t

/-- Every step keeps the stores in canonical form, from every state (R26, R41). -/
def Obligations.StepKeepsMemoryCanonical : Prop :=
  ∀ s t : State, Memory.wf s → step s = .next t → Memory.wf t

/-- R98, R130, R131: from every state that meets the invariant every command word is executed to
completion; no code fails to fit its width and no phrase lacks a code. -/
def Obligations.EveryWordCompletes : Prop :=
  ∀ (w : CmdWord) (s : State), BlockInv s → ∃ t, presentWord w s = .next t

/-- R237, R24: a list of command words runs to its end, one step a word, whatever the words, and
CMD_INDEX then is the length of the list further. The end depends on commands alone: what the host has
still to read leaves the run over and its result as it is. -/
def Obligations.CommandListsRunToTheirEnd : Prop :=
  (∀ (words : List CmdWord) (s : State), BlockInv s → s.input = words.map .command →
    ∃ t, stepMany words.length s = .next t ∧ RunOver t ∧
      t.cmdIndex = s.cmdIndex + words.length ∧ BlockInv t) ∧
  (∀ s : State, RunOver s ↔ ∀ w, HostInput.command w ∉ s.input) ∧
  (∀ (p : Port) (v : HostValue) (rest : List HostInput) (s : State), readPort p s = some v →
    s.input = .read p :: rest → RunOver s →
    ∃ t, step s = .next t ∧ RunOver t ∧ runResult t = runResult s)

/-- R131: the transitions of LZ_STATE. -/
def Obligations.LzStateTransitions : Prop :=
  ∀ (i : Instr) (s t : State), BlockInv s → exec i s = .next t →
    (s.fault ≠ 0 ∨ t.fault ≠ 0 → t.lzState = s.lzState) ∧
    (s.fault = 0 → t.fault = 0 →
      (i = .start → t.lzState = .empty) ∧
      ((∃ c, Supplies i c) → s.lzState.running = true ∧ t.lzState = .accumulating) ∧
      (i = .flush ∨ i = .save → s.lzState.running = true ∧ t.lzState = .flushed) ∧
      (i ≠ .start → ¬NeedsEncode i → t.lzState = s.lzState))

/-- R11, R12, R13, R27, R40: WIDTH and HEIGHT are written only by CFGDIM, DELAY_MS only by CFGDLY, and
no byte of OUT changes but by START, FLUSH and SAVE. -/
def Obligations.RegistersHaveOneWriter : Prop :=
  ∀ (i : Instr) (s t : State), exec i s = .next t →
    ((∀ w h, i ≠ .cfgdim w h) → t.width = s.width ∧ t.height = s.height) ∧
    ((∀ d, i ≠ .cfgdly d) → t.delayMs = s.delayMs) ∧
    (i ≠ .start → i ≠ .flush → i ≠ .save → ∀ k, outRead t k = outRead s k)

/-- R8: no step changes the parameters. -/
def Obligations.ParametersNeverChange : Prop :=
  ∀ s t : State, step s = .next t → t.params = s.params

/-- R20, R41, R97, R99: but for START, a command removes and overwrites no entry of DICT, and the only
key that can appear is the buffered phrase extended by the symbol supplied, under NEXT_CODE. -/
def Obligations.DictionaryOnlyGrows : Prop :=
  ∀ (i : Instr) (s t : State), i ≠ .start → exec i s = .next t →
    (∀ p c, Dict.read s.dict p = some c → Dict.read t.dict p = some c) ∧
    (∀ p c, Dict.read s.dict p = none → Dict.read t.dict p = some c →
      c = s.nextCode ∧ t.nextCode = s.nextCode + 1 ∧
        ∃ x, Supplies i x ∧ s.phrase ≠ [] ∧ p = s.phrase ++ [x])

/-- R25, R124: but for START, a command leaves CUR_WIDTH or increments it by exactly 1, the latter
exactly when it makes NEXT_CODE equal to 2^CUR_WIDTH; then NEXT_CODE fits again. (That growth comes with
equality and restores the bound R124 itself derives from R123.) -/
def Obligations.WidthGrowsAtPowersOfTwo : Prop :=
  ∀ (i : Instr) (s t : State), BlockInv s → i ≠ .start → exec i s = .next t →
    (t.nextCode = s.nextCode ∧ t.curWidth = s.curWidth) ∨
    (t.nextCode = s.nextCode + 1 ∧ t.nextCode ≠ 2 ^ s.curWidth ∧ t.curWidth = s.curWidth) ∨
    (t.nextCode = s.nextCode + 1 ∧ t.nextCode = 2 ^ s.curWidth ∧ t.curWidth = s.curWidth + 1 ∧
      t.nextCode < 2 ^ t.curWidth)

/-- R105, R109: but for START, no command moves or changes a bit of the stream already pushed. -/
def Obligations.PushedBitsNeverChange : Prop :=
  ∀ (i : Instr) (s t : State), Memory.wf s → i ≠ .start → exec i s = .next t →
    s.nbits ≤ t.nbits ∧ ∀ j < s.nbits, t.acc.testBit j = s.acc.testBit j

/-- R5, R29, R181: what START begins depends on the configuration alone: two unfaulted blocks that
agree on WIDTH, HEIGHT, DELAY_MS and the parameters answer every command sequence after START alike,
whatever they held before. -/
def Obligations.StartForgetsEarlierEncodes : Prop :=
  ∀ (commands : List Instr) (s u t : State), s.fault = 0 → u.fault = 0 →
    s.width = u.width → s.height = u.height → s.delayMs = u.delayMs → s.params = u.params →
    execAll (.start :: commands) s = .next t →
    ∃ v, execAll (.start :: commands) u = .next v ∧
      v.out = t.out ∧ v.lzState = t.lzState ∧ v.fault = t.fault ∧ v.symCount = t.symCount ∧
      (t.fault ≠ 0 → v.faultCmd = t.faultCmd)

/-- R42, R40, R47: a host read returns the register or the byte of OUT asked for and changes nothing
of the block; a read of OUT at or beyond its length is refused, and so is every read of OUT unless
LZ_STATE is Flushed. -/
def Obligations.HostReadsReturnAndChangeNothing : Prop :=
  ∀ (rest : List HostInput) (s : State),
    (∀ p v, readPort p s = some v → s.input = .read p :: rest →
      step s = .next { s with input := rest, reply := some v }) ∧
    readPort .width s = some (.width s.width) ∧ readPort .height s = some (.height s.height) ∧
    readPort .delayMs s = some (.delayMs s.delayMs) ∧
    readPort .lzState s = some (.lzState s.lzState.number) ∧
    readPort .fault s = some (.fault s.fault) ∧ readPort .faultCmd s = some (.faultCmd s.faultCmd) ∧
    readPort .symCount s = some (.symCount s.symCount) ∧
    readPort .outLength s = some (.outLength s.out.length) ∧
    (∀ i b, s.out[i]? = some b → readPort (.out i) s = some (.outByte b)) ∧
    (∀ i, s.out.length ≤ i ∨ BlockInv s ∧ s.lzState ≠ .flushed → s.input = .read (.out i) :: rest →
      step s = .refused .outReadPastEnd)

/-- R21, R99, R110: with MAX_WIDTH = 12, NEXT_CODE never exceeds 4095, DICT holds at most 4077
entries, a running encode at most 44991 bits, and FLUSH delivers at most 5627 bytes. -/
def Obligations.TwelveBitLimitBoundsTheStores : Prop :=
  ∀ s : State, BlockInv s → s.params.maxWidth = .bounded 12 →
    s.nextCode ≤ 4095 ∧ s.dict.length ≤ 4077 ∧
    (Ready s → s.nbits ≤ 44991 ∧ ∃ t, exec .flush s = .next t ∧ t.out.length ≤ 5627)

/-! ### The units -/

/-- R90: INDEX. Its range, 0 to 7 and 15, each of them reached, is R91, which the spec derives from
R90. -/
def Obligations.IndexOfAPixel : Prop :=
  (∀ r g b a : Byte, (index r g b a).toNat =
    if a = 0 then 15
    else (if r = 0 then 0 else 4) + (if g = 0 then 0 else 2) + (if b = 0 then 0 else 1)) ∧
  (∀ c : ColorIndex, (∃ r g b a, index r g b a = c) ↔ c.toNat ≤ 7 ∨ c.toNat = 15)

/-- R105: while the stream is not closed (`PushAfterFinishIsRefused` is about the other case), a word
that fits its width is pushed above the bits already there, bit j of the value at stream bit NBITS + j,
exactly `width` bits further; a word that does not fit is refused. That a width of 0 is refused, whatever
the value, is the model's reading of the operand's domain (log entry 6), and so is how a stream is known
not to be closed (log entry 16). -/
def Obligations.PushWordPlacesEveryBit : Prop :=
  ∀ (v w : Nat) (s : State), Memory.wf s → s.lzState ≠ .flushed ∨ s.nbits = 0 →
    (1 ≤ w → v < 2 ^ w → ∃ t, pushWord v w s = .next t ∧
      t = { s with acc := t.acc, nbits := s.nbits + w } ∧
      (∀ j < s.nbits, t.acc.testBit j = s.acc.testBit j) ∧
      (∀ j, t.acc.testBit (s.nbits + j) = v.testBit j)) ∧
    (w = 0 ∨ 2 ^ w ≤ v → pushWord v w s = .refused .wordDoesNotFit)

/-- 93_implementation_defined.md U18: after the FINISH of a FLUSH or SAVE every push is refused
(how the model knows a closed stream is log entry 16). -/
def Obligations.PushAfterFinishIsRefused : Prop :=
  ∀ (i : Instr) (s t : State), i = .flush ∨ i = .save → Ready s → exec i s = .next t → t.fault = 0 →
    ∀ v w, pushWord v w t = .refused .pushAfterFinish

/-- R106, and 93_implementation_defined.md U18: SETWIDTH writes CUR_WIDTH only; within an encode a
smaller width than the current one is refused. That a width below 5 is refused is the model's reading of
the operand's domain, which is all R106 gives (log entry 6), and that within an encode means NBITS above
0 is the model's reading too (log entry 16). -/
def Obligations.SetWidthWritesTheWidthOrRefuses : Prop :=
  ∀ (w : Nat) (s : State),
    (5 ≤ w → s.curWidth ≤ w ∨ s.nbits = 0 → setWidth w s = .next { s with curWidth := w }) ∧
    (w < 5 → setWidth w s = .refused .widthBelowInitial) ∧
    (5 ≤ w → w < s.curWidth → s.nbits ≠ 0 → setWidth w s = .refused .widthNarrowed)

/-- R107, R44, R46: FINISH rounds NBITS up to a multiple of 8 and returns ceil(NBITS / 8) bytes, with
stream bit i at bit (i mod 8) of byte floor(i / 8). -/
def Obligations.FinishPlacesEveryBit : Prop :=
  ∀ s : State, Memory.wf s →
    (finish s).1 = { s with nbits := 8 * ((s.nbits + 7) / 8) } ∧
    (finish s).2.length = (s.nbits + 7) / 8 ∧
    ∀ i b, (finish s).2[i / 8]? = some b → b.getLsbD (i % 8) = s.acc.testBit i

/-- R146, R73: the payload is cut greedily into chunks of 255 bytes, all full but possibly the last
and none empty, each behind its length byte, and one zero byte follows. -/
def Obligations.SubBlocksCarryThePayload : Prop :=
  ∀ data : List Byte, ∃ chunks : List (List Byte),
    chunks.flatten = data ∧ chunks.length = (data.length + 254) / 255 ∧
    (∀ c ∈ chunks, 1 ≤ c.length ∧ c.length ≤ 255) ∧ (∀ c ∈ chunks.dropLast, c.length = 255) ∧
    subBlocks data = (chunks.flatMap fun c => BitVec.ofNat 8 c.length :: c) ++ [0x00]

/-- R140 to R148: the file's blocks byte by byte, for every value of the palette parameter (R142). The
fixed offsets are R48, which the spec derives from these rules. -/
def Obligations.FileBlocksStandAtFixedOffsets : Prop :=
  ∀ (gct : Vector Rgb 16) (w h d : BitVec 16) (data : List Byte),
    let file := assemble gct w h d data
    let size := data.length + (data.length + 254) / 255 + 1
    let low := fun n : Nat => BitVec.ofNat 8 (n % 256)
    let high := fun n : Nat => BitVec.ofNat 8 (n / 256)
    file.length = 81 + size ∧
    file.take 6 = [0x47, 0x49, 0x46, 0x38, 0x39, 0x61] ∧
    (file.drop 6).take 7 = [low w.toNat, high w.toNat, low h.toNat, high h.toNat, 0x83, 0x08, 0x00] ∧
    (∀ (i : Nat) (_ : i < 16),
      (file.drop (13 + 3 * i)).take 3 = [gct[i].red, gct[i].green, gct[i].blue]) ∧
    (file.drop 61).take 8 =
      [0x21, 0xF9, 0x04, 0x01, low (d.toNat / 10), high (d.toNat / 10), 0x0F, 0x00] ∧
    (file.drop 69).take 10 =
      [0x2C, 0x00, 0x00, 0x00, 0x00, low w.toNat, high w.toNat, low h.toNat, high h.toNat, 0x00] ∧
    file[79]? = some 0x04 ∧
    (file.drop 80).take size = subBlocks data ∧
    file.drop (80 + size) = [0x3B]

/-- R30: the (prefix code, symbol) form of the dictionary answers every lookup of the encoder as the
sequence-keyed form does. -/
def Obligations.PrefixCodeFormIsEquivalent : Prop :=
  ∀ (s : State) (k : Nat), BlockInv s → codeOf s.dict s.phrase = some k →
    ∀ c : ColorIndex, transRead s.dict k c = Dict.read s.dict (s.phrase ++ [c])

/-- R109: the streaming packer, which keeps fewer than 8 residual bits, produces the bytes of the
whole stream of R68. -/
def Obligations.StreamingPackerIsEquivalent : Prop :=
  ∀ words : List (Nat × Nat), (∀ p ∈ words, p.1 < 2 ^ p.2) →
    (words.foldl Streamer.push Streamer.start).finish = streamBytes words

/-! ### Whole encodes -/

/-- R127, R67, R68, R132, R179: the commands of `ENCODE`, that is START, one SYM per symbol, FLUSH,
compute ENCODE of the symbols, whose codes and widths are given without any machine state, for every
input that does not overflow. -/
def Obligations.CommandsComputeEncode : Prop :=
  ∀ (symbols : List ColorIndex) (s : State), s.fault = 0 → s.params.Legal →
    FitsLimit s.params.maxWidth symbols →
    (Asm.encode (symbols.map BitVec.toNat)).expand = .start :: symbols.map .sym ++ [.flush] ∧
    ∃ t, execAll (.start :: symbols.map .sym ++ [.flush]) s = .next t ∧
      Successful t ∧ t.out = encodeSymbols symbols ∧
      (symbols ≠ [] → t.nextCode + 1 = 18 + (allDataCodes symbols).length)

/-- R6, R152, R180: START, one PIX per pixel, SAVE delivers the file that is a function of WIDTH,
HEIGHT, DELAY_MS, the parameters and the pixels' indices alone. -/
def Obligations.PixelsBecomeTheFile : Prop :=
  ∀ (pixels : List (Byte × Byte × Byte × Byte)) (s : State), s.fault = 0 → s.params.Legal →
    pixels.length = s.width.toNat * s.height.toNat →
    FitsLimit s.params.maxWidth (pixels.map fun p => index p.1 p.2.1 p.2.2.1 p.2.2.2) →
    ∃ t, execAll (.start :: pixels.map (fun p => .pix p.1 p.2.1 p.2.2.1 p.2.2.2) ++ [.save]) s =
        .next t ∧
      Successful t ∧
      t.out = assemble s.params.gct s.width s.height s.delayMs
        (encodeSymbols (pixels.map fun p => index p.1 p.2.1 p.2.2.1 p.2.2.2))

/-- R128: an input that does not fit the limit raises DictionaryOverflow before its end, and OUT
stays empty. -/
def Obligations.OverflowingInputFaults : Prop :=
  ∀ (symbols : List ColorIndex) (s : State), s.fault = 0 → s.params.Legal →
    ¬FitsLimit s.params.maxWidth symbols →
    ∃ t, execAll (.start :: symbols.map .sym ++ [.flush]) s = .next t ∧
      t.fault = 5 ∧ t.out = [] ∧ t.lzState = .accumulating

/-- Property P1 with the reader of spec/95_test_vectors.md section 5, which reads code widths by the
schedule of R67: decoding the stream yields exactly the symbols, for every input. -/
def Obligations.ReaderRecoversTheSymbols : Prop :=
  ∀ symbols : List ColorIndex, readStream (encodeSymbols symbols) = some symbols
end

