-- ==== Sys2Proof/Laws/State.lean ====
section
/-! SUPPORT. Each named update of the state, field by field: what it writes and what it leaves. -/

namespace Sys2Proof.Machine

variable (s : State)

/-! ### `raise` writes FAULT and FAULT_CMD only (R208) -/

@[simp] theorem raise_width (f : FaultCause) (w : CmdWord) : (raise f w s).width = s.width := rfl
@[simp] theorem raise_height (f : FaultCause) (w : CmdWord) : (raise f w s).height = s.height := rfl
@[simp] theorem raise_delayMs (f : FaultCause) (w : CmdWord) : (raise f w s).delayMs = s.delayMs := rfl
@[simp] theorem raise_lzState (f : FaultCause) (w : CmdWord) : (raise f w s).lzState = s.lzState := rfl
@[simp] theorem raise_fault (f : FaultCause) (w : CmdWord) : (raise f w s).fault = f.code := rfl
@[simp] theorem raise_faultCmd (f : FaultCause) (w : CmdWord) : (raise f w s).faultCmd = w := rfl
@[simp] theorem raise_symCount (f : FaultCause) (w : CmdWord) : (raise f w s).symCount = s.symCount := rfl
@[simp] theorem raise_phrase (f : FaultCause) (w : CmdWord) : (raise f w s).phrase = s.phrase := rfl
@[simp] theorem raise_dict (f : FaultCause) (w : CmdWord) : (raise f w s).dict = s.dict := rfl
@[simp] theorem raise_nextCode (f : FaultCause) (w : CmdWord) : (raise f w s).nextCode = s.nextCode := rfl
@[simp] theorem raise_curWidth (f : FaultCause) (w : CmdWord) : (raise f w s).curWidth = s.curWidth := rfl
@[simp] theorem raise_acc (f : FaultCause) (w : CmdWord) : (raise f w s).acc = s.acc := rfl
@[simp] theorem raise_nbits (f : FaultCause) (w : CmdWord) : (raise f w s).nbits = s.nbits := rfl
@[simp] theorem raise_out (f : FaultCause) (w : CmdWord) : (raise f w s).out = s.out := rfl
@[simp] theorem raise_cmdIndex (f : FaultCause) (w : CmdWord) : (raise f w s).cmdIndex = s.cmdIndex := rfl
@[simp] theorem raise_input (f : FaultCause) (w : CmdWord) : (raise f w s).input = s.input := rfl
@[simp] theorem raise_reply (f : FaultCause) (w : CmdWord) : (raise f w s).reply = s.reply := rfl
@[simp] theorem raise_params (f : FaultCause) (w : CmdWord) : (raise f w s).params = s.params := rfl

/-! ### `resetEvent` writes every field of the block (R230) -/

@[simp] theorem resetEvent_width : (resetEvent s).width = State.reset.width := rfl
@[simp] theorem resetEvent_height : (resetEvent s).height = State.reset.height := rfl
@[simp] theorem resetEvent_delayMs : (resetEvent s).delayMs = State.reset.delayMs := rfl
@[simp] theorem resetEvent_lzState : (resetEvent s).lzState = State.reset.lzState := rfl
@[simp] theorem resetEvent_fault : (resetEvent s).fault = State.reset.fault := rfl
@[simp] theorem resetEvent_faultCmd : (resetEvent s).faultCmd = State.reset.faultCmd := rfl
@[simp] theorem resetEvent_symCount : (resetEvent s).symCount = State.reset.symCount := rfl
@[simp] theorem resetEvent_phrase : (resetEvent s).phrase = State.reset.phrase := rfl
@[simp] theorem resetEvent_dict : (resetEvent s).dict = State.reset.dict := rfl
@[simp] theorem resetEvent_nextCode : (resetEvent s).nextCode = State.reset.nextCode := rfl
@[simp] theorem resetEvent_curWidth : (resetEvent s).curWidth = State.reset.curWidth := rfl
@[simp] theorem resetEvent_acc : (resetEvent s).acc = State.reset.acc := rfl
@[simp] theorem resetEvent_nbits : (resetEvent s).nbits = State.reset.nbits := rfl
@[simp] theorem resetEvent_out : (resetEvent s).out = State.reset.out := rfl
@[simp] theorem resetEvent_cmdIndex : (resetEvent s).cmdIndex = s.cmdIndex := rfl
@[simp] theorem resetEvent_input : (resetEvent s).input = s.input := rfl
@[simp] theorem resetEvent_reply : (resetEvent s).reply = s.reply := rfl
@[simp] theorem resetEvent_params : (resetEvent s).params = s.params := rfl

/-! ### `takeInput` moves the host's plan on -/

@[simp] theorem takeInput_width (r : List HostInput) : (takeInput r s).width = s.width := rfl
@[simp] theorem takeInput_height (r : List HostInput) : (takeInput r s).height = s.height := rfl
@[simp] theorem takeInput_delayMs (r : List HostInput) : (takeInput r s).delayMs = s.delayMs := rfl
@[simp] theorem takeInput_lzState (r : List HostInput) : (takeInput r s).lzState = s.lzState := rfl
@[simp] theorem takeInput_fault (r : List HostInput) : (takeInput r s).fault = s.fault := rfl
@[simp] theorem takeInput_faultCmd (r : List HostInput) : (takeInput r s).faultCmd = s.faultCmd := rfl
@[simp] theorem takeInput_symCount (r : List HostInput) : (takeInput r s).symCount = s.symCount := rfl
@[simp] theorem takeInput_phrase (r : List HostInput) : (takeInput r s).phrase = s.phrase := rfl
@[simp] theorem takeInput_dict (r : List HostInput) : (takeInput r s).dict = s.dict := rfl
@[simp] theorem takeInput_nextCode (r : List HostInput) : (takeInput r s).nextCode = s.nextCode := rfl
@[simp] theorem takeInput_curWidth (r : List HostInput) : (takeInput r s).curWidth = s.curWidth := rfl
@[simp] theorem takeInput_acc (r : List HostInput) : (takeInput r s).acc = s.acc := rfl
@[simp] theorem takeInput_nbits (r : List HostInput) : (takeInput r s).nbits = s.nbits := rfl
@[simp] theorem takeInput_out (r : List HostInput) : (takeInput r s).out = s.out := rfl
@[simp] theorem takeInput_cmdIndex (r : List HostInput) : (takeInput r s).cmdIndex = s.cmdIndex := rfl
@[simp] theorem takeInput_input (r : List HostInput) : (takeInput r s).input = r := rfl
@[simp] theorem takeInput_reply (r : List HostInput) : (takeInput r s).reply = s.reply := rfl
@[simp] theorem takeInput_params (r : List HostInput) : (takeInput r s).params = s.params := rfl

/-! ### `takeCommand` moves the host's plan on and counts the command (R24) -/

@[simp] theorem takeCommand_width (r : List HostInput) : (takeCommand r s).width = s.width := rfl
@[simp] theorem takeCommand_height (r : List HostInput) : (takeCommand r s).height = s.height := rfl
@[simp] theorem takeCommand_delayMs (r : List HostInput) : (takeCommand r s).delayMs = s.delayMs := rfl
@[simp] theorem takeCommand_lzState (r : List HostInput) : (takeCommand r s).lzState = s.lzState := rfl
@[simp] theorem takeCommand_fault (r : List HostInput) : (takeCommand r s).fault = s.fault := rfl
@[simp] theorem takeCommand_faultCmd (r : List HostInput) : (takeCommand r s).faultCmd = s.faultCmd := rfl
@[simp] theorem takeCommand_symCount (r : List HostInput) : (takeCommand r s).symCount = s.symCount := rfl
@[simp] theorem takeCommand_phrase (r : List HostInput) : (takeCommand r s).phrase = s.phrase := rfl
@[simp] theorem takeCommand_dict (r : List HostInput) : (takeCommand r s).dict = s.dict := rfl
@[simp] theorem takeCommand_nextCode (r : List HostInput) : (takeCommand r s).nextCode = s.nextCode := rfl
@[simp] theorem takeCommand_curWidth (r : List HostInput) : (takeCommand r s).curWidth = s.curWidth := rfl
@[simp] theorem takeCommand_acc (r : List HostInput) : (takeCommand r s).acc = s.acc := rfl
@[simp] theorem takeCommand_nbits (r : List HostInput) : (takeCommand r s).nbits = s.nbits := rfl
@[simp] theorem takeCommand_out (r : List HostInput) : (takeCommand r s).out = s.out := rfl
@[simp] theorem takeCommand_cmdIndex (r : List HostInput) : (takeCommand r s).cmdIndex = s.cmdIndex + 1 := rfl
@[simp] theorem takeCommand_input (r : List HostInput) : (takeCommand r s).input = r := rfl
@[simp] theorem takeCommand_reply (r : List HostInput) : (takeCommand r s).reply = s.reply := rfl
@[simp] theorem takeCommand_params (r : List HostInput) : (takeCommand r s).params = s.params := rfl

/-! ### `placeCommand` puts a command first -/

@[simp] theorem placeCommand_width (w : CmdWord) : (placeCommand w s).width = s.width := rfl
@[simp] theorem placeCommand_height (w : CmdWord) : (placeCommand w s).height = s.height := rfl
@[simp] theorem placeCommand_delayMs (w : CmdWord) : (placeCommand w s).delayMs = s.delayMs := rfl
@[simp] theorem placeCommand_lzState (w : CmdWord) : (placeCommand w s).lzState = s.lzState := rfl
@[simp] theorem placeCommand_fault (w : CmdWord) : (placeCommand w s).fault = s.fault := rfl
@[simp] theorem placeCommand_faultCmd (w : CmdWord) : (placeCommand w s).faultCmd = s.faultCmd := rfl
@[simp] theorem placeCommand_symCount (w : CmdWord) : (placeCommand w s).symCount = s.symCount := rfl
@[simp] theorem placeCommand_phrase (w : CmdWord) : (placeCommand w s).phrase = s.phrase := rfl
@[simp] theorem placeCommand_dict (w : CmdWord) : (placeCommand w s).dict = s.dict := rfl
@[simp] theorem placeCommand_nextCode (w : CmdWord) : (placeCommand w s).nextCode = s.nextCode := rfl
@[simp] theorem placeCommand_curWidth (w : CmdWord) : (placeCommand w s).curWidth = s.curWidth := rfl
@[simp] theorem placeCommand_acc (w : CmdWord) : (placeCommand w s).acc = s.acc := rfl
@[simp] theorem placeCommand_nbits (w : CmdWord) : (placeCommand w s).nbits = s.nbits := rfl
@[simp] theorem placeCommand_out (w : CmdWord) : (placeCommand w s).out = s.out := rfl
@[simp] theorem placeCommand_cmdIndex (w : CmdWord) : (placeCommand w s).cmdIndex = s.cmdIndex := rfl
@[simp] theorem placeCommand_input (w : CmdWord) : (placeCommand w s).input = .command w :: s.input := rfl
@[simp] theorem placeCommand_reply (w : CmdWord) : (placeCommand w s).reply = s.reply := rfl
@[simp] theorem placeCommand_params (w : CmdWord) : (placeCommand w s).params = s.params := rfl

/-! ### `insertEntry` writes DICT only (R97) -/

@[simp] theorem insertEntry_width (k : Phrase) (c : Nat) : (insertEntry k c s).width = s.width := rfl
@[simp] theorem insertEntry_height (k : Phrase) (c : Nat) : (insertEntry k c s).height = s.height := rfl
@[simp] theorem insertEntry_delayMs (k : Phrase) (c : Nat) : (insertEntry k c s).delayMs = s.delayMs := rfl
@[simp] theorem insertEntry_lzState (k : Phrase) (c : Nat) : (insertEntry k c s).lzState = s.lzState := rfl
@[simp] theorem insertEntry_fault (k : Phrase) (c : Nat) : (insertEntry k c s).fault = s.fault := rfl
@[simp] theorem insertEntry_faultCmd (k : Phrase) (c : Nat) : (insertEntry k c s).faultCmd = s.faultCmd := rfl
@[simp] theorem insertEntry_symCount (k : Phrase) (c : Nat) : (insertEntry k c s).symCount = s.symCount := rfl
@[simp] theorem insertEntry_phrase (k : Phrase) (c : Nat) : (insertEntry k c s).phrase = s.phrase := rfl
@[simp] theorem insertEntry_dict (k : Phrase) (c : Nat) : (insertEntry k c s).dict = Dict.write s.dict k c := rfl
@[simp] theorem insertEntry_nextCode (k : Phrase) (c : Nat) : (insertEntry k c s).nextCode = s.nextCode := rfl
@[simp] theorem insertEntry_curWidth (k : Phrase) (c : Nat) : (insertEntry k c s).curWidth = s.curWidth := rfl
@[simp] theorem insertEntry_acc (k : Phrase) (c : Nat) : (insertEntry k c s).acc = s.acc := rfl
@[simp] theorem insertEntry_nbits (k : Phrase) (c : Nat) : (insertEntry k c s).nbits = s.nbits := rfl
@[simp] theorem insertEntry_out (k : Phrase) (c : Nat) : (insertEntry k c s).out = s.out := rfl
@[simp] theorem insertEntry_cmdIndex (k : Phrase) (c : Nat) : (insertEntry k c s).cmdIndex = s.cmdIndex := rfl
@[simp] theorem insertEntry_input (k : Phrase) (c : Nat) : (insertEntry k c s).input = s.input := rfl
@[simp] theorem insertEntry_reply (k : Phrase) (c : Nat) : (insertEntry k c s).reply = s.reply := rfl
@[simp] theorem insertEntry_params (k : Phrase) (c : Nat) : (insertEntry k c s).params = s.params := rfl

/-! ### `pushBits` writes ACC and NBITS only (R105) -/

@[simp] theorem pushBits_width (v w : Nat) : (pushBits v w s).width = s.width := rfl
@[simp] theorem pushBits_height (v w : Nat) : (pushBits v w s).height = s.height := rfl
@[simp] theorem pushBits_delayMs (v w : Nat) : (pushBits v w s).delayMs = s.delayMs := rfl
@[simp] theorem pushBits_lzState (v w : Nat) : (pushBits v w s).lzState = s.lzState := rfl
@[simp] theorem pushBits_fault (v w : Nat) : (pushBits v w s).fault = s.fault := rfl
@[simp] theorem pushBits_faultCmd (v w : Nat) : (pushBits v w s).faultCmd = s.faultCmd := rfl
@[simp] theorem pushBits_symCount (v w : Nat) : (pushBits v w s).symCount = s.symCount := rfl
@[simp] theorem pushBits_phrase (v w : Nat) : (pushBits v w s).phrase = s.phrase := rfl
@[simp] theorem pushBits_dict (v w : Nat) : (pushBits v w s).dict = s.dict := rfl
@[simp] theorem pushBits_nextCode (v w : Nat) : (pushBits v w s).nextCode = s.nextCode := rfl
@[simp] theorem pushBits_curWidth (v w : Nat) : (pushBits v w s).curWidth = s.curWidth := rfl
@[simp] theorem pushBits_acc (v w : Nat) : (pushBits v w s).acc = s.acc + (v <<< s.nbits) := rfl
@[simp] theorem pushBits_nbits (v w : Nat) : (pushBits v w s).nbits = s.nbits + w := rfl
@[simp] theorem pushBits_out (v w : Nat) : (pushBits v w s).out = s.out := rfl
@[simp] theorem pushBits_cmdIndex (v w : Nat) : (pushBits v w s).cmdIndex = s.cmdIndex := rfl
@[simp] theorem pushBits_input (v w : Nat) : (pushBits v w s).input = s.input := rfl
@[simp] theorem pushBits_reply (v w : Nat) : (pushBits v w s).reply = s.reply := rfl
@[simp] theorem pushBits_params (v w : Nat) : (pushBits v w s).params = s.params := rfl

/-! ### `padToByte` writes NBITS only (R107) -/

@[simp] theorem padToByte_width : (padToByte s).width = s.width := rfl
@[simp] theorem padToByte_height : (padToByte s).height = s.height := rfl
@[simp] theorem padToByte_delayMs : (padToByte s).delayMs = s.delayMs := rfl
@[simp] theorem padToByte_lzState : (padToByte s).lzState = s.lzState := rfl
@[simp] theorem padToByte_fault : (padToByte s).fault = s.fault := rfl
@[simp] theorem padToByte_faultCmd : (padToByte s).faultCmd = s.faultCmd := rfl
@[simp] theorem padToByte_symCount : (padToByte s).symCount = s.symCount := rfl
@[simp] theorem padToByte_phrase : (padToByte s).phrase = s.phrase := rfl
@[simp] theorem padToByte_dict : (padToByte s).dict = s.dict := rfl
@[simp] theorem padToByte_nextCode : (padToByte s).nextCode = s.nextCode := rfl
@[simp] theorem padToByte_curWidth : (padToByte s).curWidth = s.curWidth := rfl
@[simp] theorem padToByte_acc : (padToByte s).acc = s.acc := rfl
@[simp] theorem padToByte_nbits : (padToByte s).nbits = s.nbits + padding s.nbits := rfl
@[simp] theorem padToByte_out : (padToByte s).out = s.out := rfl
@[simp] theorem padToByte_cmdIndex : (padToByte s).cmdIndex = s.cmdIndex := rfl
@[simp] theorem padToByte_input : (padToByte s).input = s.input := rfl
@[simp] theorem padToByte_reply : (padToByte s).reply = s.reply := rfl
@[simp] theorem padToByte_params : (padToByte s).params = s.params := rfl

/-! ### `freshEntities` empties the encoder (R120) -/

@[simp] theorem freshEntities_width : (freshEntities s).width = s.width := rfl
@[simp] theorem freshEntities_height : (freshEntities s).height = s.height := rfl
@[simp] theorem freshEntities_delayMs : (freshEntities s).delayMs = s.delayMs := rfl
@[simp] theorem freshEntities_lzState : (freshEntities s).lzState = s.lzState := rfl
@[simp] theorem freshEntities_fault : (freshEntities s).fault = s.fault := rfl
@[simp] theorem freshEntities_faultCmd : (freshEntities s).faultCmd = s.faultCmd := rfl
@[simp] theorem freshEntities_symCount : (freshEntities s).symCount = s.symCount := rfl
@[simp] theorem freshEntities_phrase : (freshEntities s).phrase = [] := rfl
@[simp] theorem freshEntities_dict : (freshEntities s).dict = [] := rfl
@[simp] theorem freshEntities_nextCode : (freshEntities s).nextCode = firstCode := rfl
@[simp] theorem freshEntities_curWidth : (freshEntities s).curWidth = s.curWidth := rfl
@[simp] theorem freshEntities_acc : (freshEntities s).acc = 0 := rfl
@[simp] theorem freshEntities_nbits : (freshEntities s).nbits = 0 := rfl
@[simp] theorem freshEntities_out : (freshEntities s).out = s.out := rfl
@[simp] theorem freshEntities_cmdIndex : (freshEntities s).cmdIndex = s.cmdIndex := rfl
@[simp] theorem freshEntities_input : (freshEntities s).input = s.input := rfl
@[simp] theorem freshEntities_reply : (freshEntities s).reply = s.reply := rfl
@[simp] theorem freshEntities_params : (freshEntities s).params = s.params := rfl

/-! ### `lzwFirst` writes PHRASE and LZ_STATE only (R121) -/

@[simp] theorem lzwFirst_width (c : ColorIndex) : (lzwFirst c s).width = s.width := rfl
@[simp] theorem lzwFirst_height (c : ColorIndex) : (lzwFirst c s).height = s.height := rfl
@[simp] theorem lzwFirst_delayMs (c : ColorIndex) : (lzwFirst c s).delayMs = s.delayMs := rfl
@[simp] theorem lzwFirst_lzState (c : ColorIndex) : (lzwFirst c s).lzState = .accumulating := rfl
@[simp] theorem lzwFirst_fault (c : ColorIndex) : (lzwFirst c s).fault = s.fault := rfl
@[simp] theorem lzwFirst_faultCmd (c : ColorIndex) : (lzwFirst c s).faultCmd = s.faultCmd := rfl
@[simp] theorem lzwFirst_symCount (c : ColorIndex) : (lzwFirst c s).symCount = s.symCount := rfl
@[simp] theorem lzwFirst_phrase (c : ColorIndex) : (lzwFirst c s).phrase = [c] := rfl
@[simp] theorem lzwFirst_dict (c : ColorIndex) : (lzwFirst c s).dict = s.dict := rfl
@[simp] theorem lzwFirst_nextCode (c : ColorIndex) : (lzwFirst c s).nextCode = s.nextCode := rfl
@[simp] theorem lzwFirst_curWidth (c : ColorIndex) : (lzwFirst c s).curWidth = s.curWidth := rfl
@[simp] theorem lzwFirst_acc (c : ColorIndex) : (lzwFirst c s).acc = s.acc := rfl
@[simp] theorem lzwFirst_nbits (c : ColorIndex) : (lzwFirst c s).nbits = s.nbits := rfl
@[simp] theorem lzwFirst_out (c : ColorIndex) : (lzwFirst c s).out = s.out := rfl
@[simp] theorem lzwFirst_cmdIndex (c : ColorIndex) : (lzwFirst c s).cmdIndex = s.cmdIndex := rfl
@[simp] theorem lzwFirst_input (c : ColorIndex) : (lzwFirst c s).input = s.input := rfl
@[simp] theorem lzwFirst_reply (c : ColorIndex) : (lzwFirst c s).reply = s.reply := rfl
@[simp] theorem lzwFirst_params (c : ColorIndex) : (lzwFirst c s).params = s.params := rfl

/-! ### `lzwMatch` writes PHRASE only (R122) -/

@[simp] theorem lzwMatch_width (c : ColorIndex) : (lzwMatch c s).width = s.width := rfl
@[simp] theorem lzwMatch_height (c : ColorIndex) : (lzwMatch c s).height = s.height := rfl
@[simp] theorem lzwMatch_delayMs (c : ColorIndex) : (lzwMatch c s).delayMs = s.delayMs := rfl
@[simp] theorem lzwMatch_lzState (c : ColorIndex) : (lzwMatch c s).lzState = s.lzState := rfl
@[simp] theorem lzwMatch_fault (c : ColorIndex) : (lzwMatch c s).fault = s.fault := rfl
@[simp] theorem lzwMatch_faultCmd (c : ColorIndex) : (lzwMatch c s).faultCmd = s.faultCmd := rfl
@[simp] theorem lzwMatch_symCount (c : ColorIndex) : (lzwMatch c s).symCount = s.symCount := rfl
@[simp] theorem lzwMatch_phrase (c : ColorIndex) : (lzwMatch c s).phrase = extend s.phrase c := rfl
@[simp] theorem lzwMatch_dict (c : ColorIndex) : (lzwMatch c s).dict = s.dict := rfl
@[simp] theorem lzwMatch_nextCode (c : ColorIndex) : (lzwMatch c s).nextCode = s.nextCode := rfl
@[simp] theorem lzwMatch_curWidth (c : ColorIndex) : (lzwMatch c s).curWidth = s.curWidth := rfl
@[simp] theorem lzwMatch_acc (c : ColorIndex) : (lzwMatch c s).acc = s.acc := rfl
@[simp] theorem lzwMatch_nbits (c : ColorIndex) : (lzwMatch c s).nbits = s.nbits := rfl
@[simp] theorem lzwMatch_out (c : ColorIndex) : (lzwMatch c s).out = s.out := rfl
@[simp] theorem lzwMatch_cmdIndex (c : ColorIndex) : (lzwMatch c s).cmdIndex = s.cmdIndex := rfl
@[simp] theorem lzwMatch_input (c : ColorIndex) : (lzwMatch c s).input = s.input := rfl
@[simp] theorem lzwMatch_reply (c : ColorIndex) : (lzwMatch c s).reply = s.reply := rfl
@[simp] theorem lzwMatch_params (c : ColorIndex) : (lzwMatch c s).params = s.params := rfl

/-! ### `setDimensions` writes WIDTH and HEIGHT only (R171) -/

@[simp] theorem setDimensions_width (x y : BitVec 16) : (setDimensions x y s).width = x := rfl
@[simp] theorem setDimensions_height (x y : BitVec 16) : (setDimensions x y s).height = y := rfl
@[simp] theorem setDimensions_delayMs (x y : BitVec 16) : (setDimensions x y s).delayMs = s.delayMs := rfl
@[simp] theorem setDimensions_lzState (x y : BitVec 16) : (setDimensions x y s).lzState = s.lzState := rfl
@[simp] theorem setDimensions_fault (x y : BitVec 16) : (setDimensions x y s).fault = s.fault := rfl
@[simp] theorem setDimensions_faultCmd (x y : BitVec 16) : (setDimensions x y s).faultCmd = s.faultCmd := rfl
@[simp] theorem setDimensions_symCount (x y : BitVec 16) : (setDimensions x y s).symCount = s.symCount := rfl
@[simp] theorem setDimensions_phrase (x y : BitVec 16) : (setDimensions x y s).phrase = s.phrase := rfl
@[simp] theorem setDimensions_dict (x y : BitVec 16) : (setDimensions x y s).dict = s.dict := rfl
@[simp] theorem setDimensions_nextCode (x y : BitVec 16) : (setDimensions x y s).nextCode = s.nextCode := rfl
@[simp] theorem setDimensions_curWidth (x y : BitVec 16) : (setDimensions x y s).curWidth = s.curWidth := rfl
@[simp] theorem setDimensions_acc (x y : BitVec 16) : (setDimensions x y s).acc = s.acc := rfl
@[simp] theorem setDimensions_nbits (x y : BitVec 16) : (setDimensions x y s).nbits = s.nbits := rfl
@[simp] theorem setDimensions_out (x y : BitVec 16) : (setDimensions x y s).out = s.out := rfl
@[simp] theorem setDimensions_cmdIndex (x y : BitVec 16) : (setDimensions x y s).cmdIndex = s.cmdIndex := rfl
@[simp] theorem setDimensions_input (x y : BitVec 16) : (setDimensions x y s).input = s.input := rfl
@[simp] theorem setDimensions_reply (x y : BitVec 16) : (setDimensions x y s).reply = s.reply := rfl
@[simp] theorem setDimensions_params (x y : BitVec 16) : (setDimensions x y s).params = s.params := rfl

/-! ### `setDelay` writes DELAY_MS only (R172) -/

@[simp] theorem setDelay_width (x : BitVec 16) : (setDelay x s).width = s.width := rfl
@[simp] theorem setDelay_height (x : BitVec 16) : (setDelay x s).height = s.height := rfl
@[simp] theorem setDelay_delayMs (x : BitVec 16) : (setDelay x s).delayMs = x := rfl
@[simp] theorem setDelay_lzState (x : BitVec 16) : (setDelay x s).lzState = s.lzState := rfl
@[simp] theorem setDelay_fault (x : BitVec 16) : (setDelay x s).fault = s.fault := rfl
@[simp] theorem setDelay_faultCmd (x : BitVec 16) : (setDelay x s).faultCmd = s.faultCmd := rfl
@[simp] theorem setDelay_symCount (x : BitVec 16) : (setDelay x s).symCount = s.symCount := rfl
@[simp] theorem setDelay_phrase (x : BitVec 16) : (setDelay x s).phrase = s.phrase := rfl
@[simp] theorem setDelay_dict (x : BitVec 16) : (setDelay x s).dict = s.dict := rfl
@[simp] theorem setDelay_nextCode (x : BitVec 16) : (setDelay x s).nextCode = s.nextCode := rfl
@[simp] theorem setDelay_curWidth (x : BitVec 16) : (setDelay x s).curWidth = s.curWidth := rfl
@[simp] theorem setDelay_acc (x : BitVec 16) : (setDelay x s).acc = s.acc := rfl
@[simp] theorem setDelay_nbits (x : BitVec 16) : (setDelay x s).nbits = s.nbits := rfl
@[simp] theorem setDelay_out (x : BitVec 16) : (setDelay x s).out = s.out := rfl
@[simp] theorem setDelay_cmdIndex (x : BitVec 16) : (setDelay x s).cmdIndex = s.cmdIndex := rfl
@[simp] theorem setDelay_input (x : BitVec 16) : (setDelay x s).input = s.input := rfl
@[simp] theorem setDelay_reply (x : BitVec 16) : (setDelay x s).reply = s.reply := rfl
@[simp] theorem setDelay_params (x : BitVec 16) : (setDelay x s).params = s.params := rfl

/-! ### `clearResult` writes SYMCOUNT and OUT only (R173) -/

@[simp] theorem clearResult_width : (clearResult s).width = s.width := rfl
@[simp] theorem clearResult_height : (clearResult s).height = s.height := rfl
@[simp] theorem clearResult_delayMs : (clearResult s).delayMs = s.delayMs := rfl
@[simp] theorem clearResult_lzState : (clearResult s).lzState = s.lzState := rfl
@[simp] theorem clearResult_fault : (clearResult s).fault = s.fault := rfl
@[simp] theorem clearResult_faultCmd : (clearResult s).faultCmd = s.faultCmd := rfl
@[simp] theorem clearResult_symCount : (clearResult s).symCount = 0 := rfl
@[simp] theorem clearResult_phrase : (clearResult s).phrase = s.phrase := rfl
@[simp] theorem clearResult_dict : (clearResult s).dict = s.dict := rfl
@[simp] theorem clearResult_nextCode : (clearResult s).nextCode = s.nextCode := rfl
@[simp] theorem clearResult_curWidth : (clearResult s).curWidth = s.curWidth := rfl
@[simp] theorem clearResult_acc : (clearResult s).acc = s.acc := rfl
@[simp] theorem clearResult_nbits : (clearResult s).nbits = s.nbits := rfl
@[simp] theorem clearResult_out : (clearResult s).out = [] := rfl
@[simp] theorem clearResult_cmdIndex : (clearResult s).cmdIndex = s.cmdIndex := rfl
@[simp] theorem clearResult_input : (clearResult s).input = s.input := rfl
@[simp] theorem clearResult_reply : (clearResult s).reply = s.reply := rfl
@[simp] theorem clearResult_params : (clearResult s).params = s.params := rfl

/-! ### `countSymbol` writes SYMCOUNT only (R174, R175) -/

@[simp] theorem countSymbol_width : (countSymbol s).width = s.width := rfl
@[simp] theorem countSymbol_height : (countSymbol s).height = s.height := rfl
@[simp] theorem countSymbol_delayMs : (countSymbol s).delayMs = s.delayMs := rfl
@[simp] theorem countSymbol_lzState : (countSymbol s).lzState = s.lzState := rfl
@[simp] theorem countSymbol_fault : (countSymbol s).fault = s.fault := rfl
@[simp] theorem countSymbol_faultCmd : (countSymbol s).faultCmd = s.faultCmd := rfl
@[simp] theorem countSymbol_symCount : (countSymbol s).symCount = countUp s.symCount := rfl
@[simp] theorem countSymbol_phrase : (countSymbol s).phrase = s.phrase := rfl
@[simp] theorem countSymbol_dict : (countSymbol s).dict = s.dict := rfl
@[simp] theorem countSymbol_nextCode : (countSymbol s).nextCode = s.nextCode := rfl
@[simp] theorem countSymbol_curWidth : (countSymbol s).curWidth = s.curWidth := rfl
@[simp] theorem countSymbol_acc : (countSymbol s).acc = s.acc := rfl
@[simp] theorem countSymbol_nbits : (countSymbol s).nbits = s.nbits := rfl
@[simp] theorem countSymbol_out : (countSymbol s).out = s.out := rfl
@[simp] theorem countSymbol_cmdIndex : (countSymbol s).cmdIndex = s.cmdIndex := rfl
@[simp] theorem countSymbol_input : (countSymbol s).input = s.input := rfl
@[simp] theorem countSymbol_reply : (countSymbol s).reply = s.reply := rfl
@[simp] theorem countSymbol_params : (countSymbol s).params = s.params := rfl

/-! ### `deliverStream` writes NBITS and OUT only (R176) -/

@[simp] theorem deliverStream_width : (deliverStream s).width = s.width := rfl
@[simp] theorem deliverStream_height : (deliverStream s).height = s.height := rfl
@[simp] theorem deliverStream_delayMs : (deliverStream s).delayMs = s.delayMs := rfl
@[simp] theorem deliverStream_lzState : (deliverStream s).lzState = s.lzState := rfl
@[simp] theorem deliverStream_fault : (deliverStream s).fault = s.fault := rfl
@[simp] theorem deliverStream_faultCmd : (deliverStream s).faultCmd = s.faultCmd := rfl
@[simp] theorem deliverStream_symCount : (deliverStream s).symCount = s.symCount := rfl
@[simp] theorem deliverStream_phrase : (deliverStream s).phrase = s.phrase := rfl
@[simp] theorem deliverStream_dict : (deliverStream s).dict = s.dict := rfl
@[simp] theorem deliverStream_nextCode : (deliverStream s).nextCode = s.nextCode := rfl
@[simp] theorem deliverStream_curWidth : (deliverStream s).curWidth = s.curWidth := rfl
@[simp] theorem deliverStream_acc : (deliverStream s).acc = s.acc := rfl
@[simp] theorem deliverStream_nbits : (deliverStream s).nbits = s.nbits + padding s.nbits := rfl
@[simp] theorem deliverStream_out : (deliverStream s).out = (finish s).2 := rfl
@[simp] theorem deliverStream_cmdIndex : (deliverStream s).cmdIndex = s.cmdIndex := rfl
@[simp] theorem deliverStream_input : (deliverStream s).input = s.input := rfl
@[simp] theorem deliverStream_reply : (deliverStream s).reply = s.reply := rfl
@[simp] theorem deliverStream_params : (deliverStream s).params = s.params := rfl

/-! ### `deliverFile` writes NBITS and OUT only (R177) -/

@[simp] theorem deliverFile_width : (deliverFile s).width = s.width := rfl
@[simp] theorem deliverFile_height : (deliverFile s).height = s.height := rfl
@[simp] theorem deliverFile_delayMs : (deliverFile s).delayMs = s.delayMs := rfl
@[simp] theorem deliverFile_lzState : (deliverFile s).lzState = s.lzState := rfl
@[simp] theorem deliverFile_fault : (deliverFile s).fault = s.fault := rfl
@[simp] theorem deliverFile_faultCmd : (deliverFile s).faultCmd = s.faultCmd := rfl
@[simp] theorem deliverFile_symCount : (deliverFile s).symCount = s.symCount := rfl
@[simp] theorem deliverFile_phrase : (deliverFile s).phrase = s.phrase := rfl
@[simp] theorem deliverFile_dict : (deliverFile s).dict = s.dict := rfl
@[simp] theorem deliverFile_nextCode : (deliverFile s).nextCode = s.nextCode := rfl
@[simp] theorem deliverFile_curWidth : (deliverFile s).curWidth = s.curWidth := rfl
@[simp] theorem deliverFile_acc : (deliverFile s).acc = s.acc := rfl
@[simp] theorem deliverFile_nbits : (deliverFile s).nbits = s.nbits + padding s.nbits := rfl
@[simp] theorem deliverFile_out : (deliverFile s).out = assemble s.params.gct s.width s.height s.delayMs (finish s).2 := rfl
@[simp] theorem deliverFile_cmdIndex : (deliverFile s).cmdIndex = s.cmdIndex := rfl
@[simp] theorem deliverFile_input : (deliverFile s).input = s.input := rfl
@[simp] theorem deliverFile_reply : (deliverFile s).reply = s.reply := rfl
@[simp] theorem deliverFile_params : (deliverFile s).params = s.params := rfl

end Sys2Proof.Machine
end

