-- ==== Sys2Proof/Laws/Memory.lean ====
section
/-! SUPPORT. The laws of the stores: the serialization of phrases is injective (R100), reading after
writing DICT (R41, R97), and every memory operation keeps the canonical form. -/

namespace Sys2Proof.Machine

theorem Phrase.key_concat (p : Phrase) (s : ColorIndex) :
    Phrase.key (p ++ [s]) = 16 * Phrase.key p + s.toNat := by
  simp [Phrase.key]

theorem Phrase.key_pos (p : Phrase) : 1 ≤ Phrase.key p := by
  induction p using List.reverseRecOn with
  | nil => simp [Phrase.key]
  | append_singleton p s ih => rw [key_concat]; omega

/-- Distinct phrases never collide (R100). -/
theorem Phrase.key_injective {p q : Phrase} (h : Phrase.key p = Phrase.key q) : p = q := by
  induction p using List.reverseRecOn generalizing q with
  | nil =>
    cases q using List.reverseRecOn with
    | nil => rfl
    | append_singleton q t =>
      rw [key_concat] at h
      have := key_pos q
      simp only [Phrase.key, List.foldl_nil] at h
      simp only [Phrase.key] at this
      omega
  | append_singleton p s ih =>
    have hs := s.isLt
    cases q using List.reverseRecOn with
    | nil =>
      rw [key_concat] at h
      have := key_pos p
      simp only [Phrase.key, List.foldl_nil] at h
      simp only [Phrase.key] at this
      omega
    | append_singleton q t =>
      rw [key_concat, key_concat] at h
      have ht := t.isLt
      have hst : s = t := BitVec.eq_of_toNat_eq (by omega)
      rw [ih (q := q) (by omega), hst]

@[simp] theorem Dict.read_nil (key : Phrase) : Dict.read [] key = none := rfl

/-- A write is read back, and "all other entries [are] unchanged" (R97). -/
theorem Dict.read_write (d : Dict) (k : Phrase) (c : Nat) (p : Phrase) :
    Dict.read (Dict.write d k c) p = if k = p then some c else Dict.read d p := by
  induction d with
  | nil => rfl
  | cons e rest ih =>
    obtain ⟨q, x⟩ := e
    by_cases hq : q = k
    · subst hq
      by_cases h : q = p <;> simp [Dict.write, Dict.read, h]
    · by_cases hlt : Phrase.key k < Phrase.key q
      · simp only [Dict.write, hq, if_false, hlt, if_true, Dict.read]
      · simp only [Dict.write, hq, if_false, hlt, Dict.read, ih]
        by_cases h : q = p
        · have hk : ¬ k = p := fun h' => hq (h.trans h'.symm)
          simp only [h, hk, if_true, if_false]
        · simp only [h, if_false]

@[simp] theorem Dict.read_write_self (d : Dict) (k : Phrase) (c : Nat) :
    Dict.read (Dict.write d k c) k = some c := by
  simp [Dict.read_write]

theorem Dict.read_write_of_ne {k p : Phrase} (d : Dict) (c : Nat) (h : k ≠ p) :
    Dict.read (Dict.write d k c) p = Dict.read d p := by
  simp [Dict.read_write, h]

/-- A write of an absent key adds exactly one pair (R132). -/
theorem Dict.length_write {d : Dict} {k : Phrase} (c : Nat) (h : Dict.read d k = none) :
    (Dict.write d k c).length = d.length + 1 := by
  induction d with
  | nil => rfl
  | cons e rest ih =>
    obtain ⟨q, x⟩ := e
    by_cases hq : q = k
    · simp [Dict.read, hq] at h
    · by_cases hlt : Phrase.key k < Phrase.key q
      · simp [Dict.write, hq, hlt]
      · simp only [Dict.read, hq, if_false] at h
        simp [Dict.write, hq, hlt, ih h]

theorem Dict.wf_nil : Dict.wf [] := List.Pairwise.nil

theorem Dict.mem_keys_write {d : Dict} {k : Phrase} {c : Nat} {n : Nat}
    (h : n ∈ (Dict.write d k c).map fun e => Phrase.key e.1) :
    n = Phrase.key k ∨ n ∈ d.map fun e => Phrase.key e.1 := by
  induction d with
  | nil => simpa [Dict.write] using h
  | cons e rest ih =>
    obtain ⟨q, x⟩ := e
    by_cases hq : q = k
    · subst hq
      simp only [Dict.write, if_true, List.map_cons, List.mem_cons] at h ⊢
      exact h.imp id Or.inr
    · by_cases hlt : Phrase.key k < Phrase.key q
      · simp only [Dict.write, hq, if_false, hlt, if_true, List.map_cons, List.mem_cons] at h ⊢
        exact h
      · simp only [Dict.write, hq, if_false, hlt, List.map_cons, List.mem_cons] at h ⊢
        rcases h with h | h
        · exact .inr (.inl h)
        · exact (ih h).imp id .inr

/-- Every write keeps the canonical form. -/
theorem Dict.wf_write {d : Dict} (k : Phrase) (c : Nat) (h : Dict.wf d) :
    Dict.wf (Dict.write d k c) := by
  induction d with
  | nil => simp [Dict.wf, Dict.write]
  | cons e rest ih =>
    obtain ⟨q, x⟩ := e
    have hrest := (List.pairwise_cons.mp h).2
    have hhead := (List.pairwise_cons.mp h).1
    by_cases hq : q = k
    · subst hq; simpa [Dict.wf, Dict.write] using h
    · by_cases hlt : Phrase.key k < Phrase.key q
      · simp only [Dict.wf, Dict.write, hq, if_false, hlt, if_true, List.map_cons]
        refine List.pairwise_cons.mpr ⟨fun n hn => ?_, h⟩
        rcases List.mem_cons.mp hn with rfl | hn
        · exact hlt
        · exact hlt.trans (hhead n hn)
      · have hne : Phrase.key q ≠ Phrase.key k := fun h' => hq (Phrase.key_injective h')
        simp only [Dict.wf, Dict.write, hq, if_false, hlt, List.map_cons]
        refine List.pairwise_cons.mpr ⟨fun n hn => ?_, ih hrest⟩
        rcases Dict.mem_keys_write hn with rfl | hn
        · omega
        · exact hhead n hn

/-- A push keeps ACC below 2^NBITS when the word fits its width (R26, R105). -/
theorem pushBits_acc_lt {s : State} {v w : Nat} (hacc : s.acc < 2 ^ s.nbits) (hv : v < 2 ^ w) :
    (pushBits v w s).acc < 2 ^ (pushBits v w s).nbits := by
  simp only [pushBits_acc, pushBits_nbits, Nat.shiftLeft_eq, pow_add]
  calc s.acc + v * 2 ^ s.nbits < 2 ^ s.nbits + v * 2 ^ s.nbits := by omega
    _ = (v + 1) * 2 ^ s.nbits := by ring
    _ ≤ 2 ^ w * 2 ^ s.nbits := Nat.mul_le_mul_right _ hv
    _ = 2 ^ s.nbits * 2 ^ w := Nat.mul_comm _ _

theorem pushBits_memory {s : State} {v w : Nat} (h : Memory.wf s) (hv : v < 2 ^ w) :
    Memory.wf (pushBits v w s) :=
  ⟨h.1, pushBits_acc_lt h.2 hv⟩

theorem insertEntry_memory {s : State} (k : Phrase) (c : Nat) (h : Memory.wf s) :
    Memory.wf (insertEntry k c s) :=
  ⟨Dict.wf_write k c h.1, h.2⟩

theorem freshEntities_memory (s : State) : Memory.wf (freshEntities s) :=
  ⟨Dict.wf_nil, by simp⟩

theorem padToByte_memory {s : State} (h : Memory.wf s) : Memory.wf (padToByte s) :=
  ⟨h.1, h.2.trans_le (Nat.pow_le_pow_right (by omega) (Nat.le_add_right _ _))⟩

theorem resetEvent_memory (s : State) : Memory.wf (resetEvent s) :=
  ⟨Dict.wf_nil, show (0 : Nat) < 2 ^ 0 by decide⟩

theorem raise_memory {s : State} (f : FaultCause) (w : CmdWord) (h : Memory.wf s) :
    Memory.wf (raise f w s) := h

/-- The memory of the reset state is in canonical form. -/
theorem reset_memory : Memory.wf State.reset := ⟨Dict.wf_nil, by decide⟩

end Sys2Proof.Machine
end

