-- ==== Sys2Proof/Laws/Ops.lean ====
section
/-! SUPPORT. One lemma per shared operation: everything it can answer. -/

namespace Sys2Proof.Machine

@[simp] theorem minCodeSize_eq : minCodeSize = 4 := rfl
@[simp] theorem initWidth_eq : initWidth = 5 := rfl
@[simp] theorem clearCode_eq : clearCode = 16 := rfl
@[simp] theorem eoiCode_eq : eoiCode = 17 := rfl
@[simp] theorem firstCode_eq : firstCode = 18 := rfl
@[simp] theorem subBlockMax_eq : subBlockMax = 255 := rfl

/-! ### Sequencing -/

@[simp] theorem andThen_next (s : State) (f : State → Result) : andThen (.next s) f = f s := rfl

@[simp] theorem andThen_refused (e : Refusal) (f : State → Result) :
    andThen (.refused e) f = .refused e := rfl

/-- A sequence answers a next state when both parts do. -/
theorem andThen_eq_next {r : Result} {f : State → Result} {t : State} :
    andThen r f = .next t ↔ ∃ u, r = .next u ∧ f u = .next t := by
  cases r <;> simp [andThen]

/-! ### The common execution rule (R170) -/

theorem execute_frozen {i : Instr} {check : State → Option FaultCause} {perform : State → Result}
    {s : State} (h : s.fault ≠ 0) : execute i check perform s = .next s := if_pos h

theorem execute_outOfSequence {i : Instr} {check : State → Option FaultCause}
    {perform : State → Result} {s : State} (h : s.fault = 0) (hl : legalIn i s.lzState = false) :
    execute i check perform s = .next (raise .sequenceError (encode i) s) := by
  simp [execute, h, hl]

theorem execute_raises {i : Instr} {check : State → Option FaultCause} {perform : State → Result}
    {s : State} {cause : FaultCause} (h : s.fault = 0) (hl : legalIn i s.lzState = true)
    (hc : check s = some cause) : execute i check perform s = .next (raise cause (encode i) s) := by
  simp [execute, h, hl, hc]

theorem execute_performs {i : Instr} {check : State → Option FaultCause} {perform : State → Result}
    {s : State} (h : s.fault = 0) (hl : legalIn i s.lzState = true) (hc : check s = none) :
    execute i check perform s = perform s := by
  simp [execute, h, hl, hc]

/-- Everything a command can do: it is discarded, it raises a fault, or it is performed. -/
theorem execute_cases {i : Instr} {check : State → Option FaultCause} {perform : State → Result}
    {s t : State} (h : execute i check perform s = .next t) :
    (s.fault ≠ 0 ∧ t = s) ∨
    (s.fault = 0 ∧ legalIn i s.lzState = false ∧ t = raise .sequenceError (encode i) s) ∨
    (s.fault = 0 ∧ legalIn i s.lzState = true ∧
      ∃ cause, check s = some cause ∧ t = raise cause (encode i) s) ∨
    (s.fault = 0 ∧ legalIn i s.lzState = true ∧ check s = none ∧ perform s = .next t) := by
  by_cases hf : s.fault = 0
  · cases hl : legalIn i s.lzState with
    | false =>
      rw [execute_outOfSequence hf hl] at h
      exact .inr (.inl ⟨hf, rfl, (Host.Outcome.next.inj h).symm⟩)
    | true =>
      cases hc : check s with
      | some cause =>
        rw [execute_raises hf hl hc] at h
        exact .inr (.inr (.inl ⟨hf, rfl, cause, rfl, (Host.Outcome.next.inj h).symm⟩))
      | none =>
        rw [execute_performs hf hl hc] at h
        exact .inr (.inr (.inr ⟨hf, rfl, rfl, h⟩))
  · rw [execute_frozen hf] at h
    exact .inl ⟨hf, (Host.Outcome.next.inj h).symm⟩

/-! ### The packer (R105 to R107) -/

theorem not_streamClosed {s : State} (h : s.lzState ≠ .flushed) : ¬StreamClosed s :=
  fun h' => h h'.1

/-- A push after FINISH is refused (U18). -/
theorem pushWord_closed {v w : Nat} {s : State} (h : StreamClosed s) :
    pushWord v w s = .refused .pushAfterFinish := if_pos h

/-- A word that does not fit is refused (R105). -/
theorem pushWord_misfit {v w : Nat} {s : State} (h : ¬StreamClosed s) (hw : ¬(1 ≤ w ∧ v < 2 ^ w)) :
    pushWord v w s = .refused .wordDoesNotFit := (if_neg h).trans (if_neg hw)

theorem pushWord_fits {v w : Nat} {s : State} (h : ¬StreamClosed s) (hw : 1 ≤ w) (hv : v < 2 ^ w) :
    pushWord v w s = .next (pushBits v w s) := (if_neg h).trans (if_pos ⟨hw, hv⟩)

/-- When PUSHWORD takes a step, and which (R105, U18). -/
theorem pushWord_eq_next {v w : Nat} {s t : State} :
    pushWord v w s = .next t ↔ ¬StreamClosed s ∧ 1 ≤ w ∧ v < 2 ^ w ∧ t = pushBits v w s := by
  by_cases h : StreamClosed s
  · simp only [pushWord_closed h, reduceCtorEq, false_iff]
    exact fun h' => h'.1 h
  · by_cases hw : 1 ≤ w ∧ v < 2 ^ w
    · rw [pushWord_fits h hw.1 hw.2, Host.Outcome.next.injEq]
      exact ⟨fun h' => ⟨h, hw.1, hw.2, h'.symm⟩, fun h' => h'.2.2.2.symm⟩
    · simp only [pushWord_misfit h hw, reduceCtorEq, false_iff]
      exact fun h' => hw ⟨h'.2.1, h'.2.2.1⟩

/-- When SETWIDTH takes a step, and which (R106, U18). -/
theorem setWidth_eq_next {w : Nat} {s t : State} :
    setWidth w s = .next t ↔ 5 ≤ w ∧ ¬Narrows w s ∧ t = { s with curWidth := w } := by
  unfold setWidth
  split
  · next h =>
    simp only [reduceCtorEq, false_iff]
    exact fun h' => Nat.not_lt.mpr h'.1 h
  · next h =>
    split
    · next hn =>
      simp only [reduceCtorEq, false_iff]
      exact fun h' => h'.2.1 hn
    · next hn =>
      rw [Host.Outcome.next.injEq]
      exact ⟨fun h' => ⟨Nat.not_lt.mp h, hn, h'.symm⟩, fun h' => h'.2.2.symm⟩

theorem emit_eq_next {c : Nat} {s t : State} :
    emit c s = .next t ↔
      ¬StreamClosed s ∧ 1 ≤ s.curWidth ∧ c < 2 ^ s.curWidth ∧ t = pushBits c s.curWidth s :=
  pushWord_eq_next

/-- EMIT while the encode has not ended (R130). -/
theorem emit_running {c : Nat} {s t : State} (hs : s.lzState ≠ .flushed) :
    emit c s = .next t ↔ 1 ≤ s.curWidth ∧ c < 2 ^ s.curWidth ∧ t = pushBits c s.curWidth s := by
  rw [emit_eq_next, and_iff_right (not_streamClosed hs)]

theorem growWidth_eq_next {s t : State} :
    growWidth s = .next t ↔
      (s.nextCode < 2 ^ s.curWidth ∧ t = s) ∨
      (2 ^ s.curWidth ≤ s.nextCode ∧ 4 ≤ s.curWidth ∧ t = { s with curWidth := s.curWidth + 1 }) := by
  unfold growWidth needsWidth
  by_cases h : 2 ^ s.curWidth ≤ s.nextCode
  · simp only [h, decide_true, if_true, setWidth_eq_next, true_and]
    constructor
    · exact fun h' => .inr ⟨by omega, h'.2.2⟩
    · rintro (h' | h')
      · omega
      · exact ⟨by omega, fun hn => by have := hn.1; omega, h'.2⟩
  · simp [h, Nat.lt_of_not_le h, eq_comm]

/-! ### The encoder (R120 to R125) -/

/-- The state LZW_INIT leaves (R120). -/
theorem lzwInit_next (s : State) :
    lzwInit s = .next { freshEntities s with curWidth := 5, acc := 16, nbits := 5, lzState := .empty } := by
  simp [lzwInit, setWidth, Narrows, emit, pushWord, StreamClosed, pushBits, freshEntities]

/-- Everything the mismatch branch can do while an encode runs (R123, R124). -/
theorem lzwMismatch_eq_next {c : ColorIndex} {s t : State} (hs : s.lzState ≠ .flushed) :
    lzwMismatch c s = .next t ↔
      ∃ code, codeOf s.dict s.phrase = some code ∧ 1 ≤ s.curWidth ∧ code < 2 ^ s.curWidth ∧
        ((s.nextCode + 1 < 2 ^ s.curWidth ∧
          t = { s with
            acc := s.acc + (code <<< s.nbits), nbits := s.nbits + s.curWidth
            dict := Dict.write s.dict (s.phrase ++ [c]) s.nextCode
            nextCode := s.nextCode + 1, phrase := [c] }) ∨
        (2 ^ s.curWidth ≤ s.nextCode + 1 ∧ 4 ≤ s.curWidth ∧
          t = { s with
            acc := s.acc + (code <<< s.nbits), nbits := s.nbits + s.curWidth
            dict := Dict.write s.dict (s.phrase ++ [c]) s.nextCode
            nextCode := s.nextCode + 1, phrase := [c], curWidth := s.curWidth + 1 })) := by
  unfold lzwMismatch
  cases hc : codeOf s.dict s.phrase with
  | none => simp
  | some code =>
    simp only [andThen_eq_next, emit_running hs, growWidth_eq_next, Option.some.injEq, exists_eq_left',
      Host.Outcome.next.injEq]
    constructor
    · rintro ⟨u, ⟨hw, hv, rfl⟩, v, h | h, rfl⟩
      · obtain ⟨h, rfl⟩ := h
        exact ⟨hw, hv, .inl ⟨h, rfl⟩⟩
      · obtain ⟨h, h4, rfl⟩ := h
        exact ⟨hw, hv, .inr ⟨h, h4, rfl⟩⟩
    · rintro ⟨hw, hv, ⟨h, rfl⟩ | ⟨h, h4, rfl⟩⟩
      · exact ⟨_, ⟨hw, hv, rfl⟩, _, .inl ⟨h, rfl⟩, rfl⟩
      · exact ⟨_, ⟨hw, hv, rfl⟩, _, .inr ⟨h, h4, rfl⟩, rfl⟩

/-- Everything LZW_STEP can do: one of the three branches (R121, R122, R123). -/
theorem lzwStep_cases {c : ColorIndex} {s t : State} (h : lzwStep c s = .next t) :
    (s.phrase = [] ∧ t = lzwFirst c s) ∨
    (s.phrase ≠ [] ∧ (∃ k, Dict.read s.dict (s.phrase ++ [c]) = some k) ∧ t = lzwMatch c s) ∨
    (s.phrase ≠ [] ∧ Dict.read s.dict (s.phrase ++ [c]) = none ∧ lzwMismatch c s = .next t) := by
  unfold lzwStep at h
  by_cases hp : s.phrase = []
  · simp only [hp, if_true, Host.Outcome.next.injEq] at h
    exact .inl ⟨hp, h.symm⟩
  · simp only [hp, if_false] at h
    cases hr : Dict.read s.dict (s.phrase ++ [c]) with
    | some k =>
      simp only [lookup, extend, hr, Option.isSome_some, if_true, Host.Outcome.next.injEq] at h
      exact .inr (.inl ⟨hp, ⟨k, rfl⟩, h.symm⟩)
    | none =>
      simp only [lookup, extend, hr, Option.isSome_none, Bool.false_eq_true, if_false] at h
      exact .inr (.inr ⟨hp, rfl, h⟩)

theorem lzwStep_first {c : ColorIndex} {s : State} (hp : s.phrase = []) :
    lzwStep c s = .next (lzwFirst c s) := by
  simp [lzwStep, hp]

theorem lzwStep_match {c : ColorIndex} {s : State} {k : Nat} (hp : s.phrase ≠ [])
    (hr : Dict.read s.dict (s.phrase ++ [c]) = some k) : lzwStep c s = .next (lzwMatch c s) := by
  simp [lzwStep, hp, lookup, extend, hr]

theorem lzwStep_mismatch {c : ColorIndex} {s : State} (hp : s.phrase ≠ [])
    (hr : Dict.read s.dict (s.phrase ++ [c]) = none) : lzwStep c s = lzwMismatch c s := by
  simp [lzwStep, hp, lookup, extend, hr]

/-- The symbol takes the mismatch branch (R123). -/
theorem mismatches_iff {c : ColorIndex} {s : State} :
    mismatches c s = true ↔ s.phrase ≠ [] ∧ Dict.read s.dict (s.phrase ++ [c]) = none := by
  simp [mismatches, lookup, extend]

theorem wouldOverflow_iff {s : State} :
    wouldOverflow s = true ↔
      2 ^ s.curWidth ≤ s.nextCode + 1 ∧ s.params.maxWidth = .bounded s.curWidth := by
  have hlimit : atLimit s.params.maxWidth s.curWidth = true ↔
      s.params.maxWidth = .bounded s.curWidth := by
    cases s.params.maxWidth with
    | bounded m =>
      simp only [atLimit, beq_iff_eq, WidthLimit.bounded.injEq]
      exact eq_comm
    | unbounded => simp [atLimit]
  simp [wouldOverflow, needsWidth, hlimit]

/-- The overflow test of PIX and SYM in the manual's terms (R128, R206). -/
theorem overflowCheck_eq_some {c : ColorIndex} {s : State} {cause : FaultCause} :
    overflowCheck c s = some cause ↔
      cause = .dictionaryOverflow ∧ s.phrase ≠ [] ∧
        Dict.read s.dict (s.phrase ++ [c]) = none ∧ 2 ^ s.curWidth ≤ s.nextCode + 1 ∧
        s.params.maxWidth = .bounded s.curWidth := by
  have h : (mismatches c s && wouldOverflow s) = true ↔ _ :=
    Bool.and_eq_true_iff.trans (and_congr mismatches_iff wouldOverflow_iff)
  unfold overflowCheck
  cases hb : (mismatches c s && wouldOverflow s) with
  | true =>
    obtain ⟨⟨hp, hr⟩, hn, hm⟩ := h.mp hb
    simp only [if_true, Option.some.injEq]
    exact ⟨fun e => ⟨e.symm, hp, hr, hn, hm⟩, fun e => e.1.symm⟩
  | false =>
    simp only [Bool.false_eq_true, if_false, reduceCtorEq, false_iff]
    rintro ⟨-, hp, hr, hn, hm⟩
    rw [h.mpr ⟨⟨hp, hr⟩, hn, hm⟩] at hb
    cases hb

theorem overflowCheck_eq_none {c : ColorIndex} {s : State}
    (h : s.phrase = [] ∨ Dict.read s.dict (s.phrase ++ [c]) ≠ none ∨
      s.nextCode + 1 < 2 ^ s.curWidth ∨ s.params.maxWidth ≠ .bounded s.curWidth) :
    overflowCheck c s = none := by
  cases ho : overflowCheck c s with
  | none => rfl
  | some cause =>
    obtain ⟨-, hp, hr, hn, hm⟩ := overflowCheck_eq_some.mp ho
    rcases h with h | h | h | h
    · exact absurd h hp
    · exact absurd hr h
    · omega
    · exact absurd hm h

/-- Everything the first half of LZW_END can do while an encode runs (R125, R126). -/
theorem emitPhrase_eq_next {s t : State} (hs : s.lzState ≠ .flushed) :
    emitPhrase s = .next t ↔
      (s.phrase = [] ∧ t = s) ∨
      (s.phrase ≠ [] ∧ ∃ code, codeOf s.dict s.phrase = some code ∧ 1 ≤ s.curWidth ∧
        code < 2 ^ s.curWidth ∧ t = pushBits code s.curWidth s) := by
  unfold emitPhrase
  by_cases hp : s.phrase = []
  · simp [hp, eq_comm]
  · simp only [hp, if_false, false_and, false_or, ne_eq, not_false_eq_true, true_and]
    cases hc : codeOf s.dict s.phrase with
    | none => simp
    | some code => simp [emit_running hs]

/-- Everything LZW_END can do while an encode runs (R125). -/
theorem lzwEnd_eq_next {s t : State} (hs : s.lzState ≠ .flushed) :
    lzwEnd s = .next t ↔
      ∃ u, emitPhrase s = .next u ∧ 1 ≤ u.curWidth ∧ 17 < 2 ^ u.curWidth ∧
        t = { pushBits 17 u.curWidth u with lzState := .flushed } := by
  have running : ∀ {u}, emitPhrase s = .next u → u.lzState ≠ .flushed := by
    intro u hu
    rcases (emitPhrase_eq_next hs).mp hu with ⟨-, rfl⟩ | ⟨-, code, -, -, -, rfl⟩ <;> exact hs
  simp only [lzwEnd, andThen_eq_next, eoiCode_eq, Host.Outcome.next.injEq]
  constructor
  · rintro ⟨u, hu, v, hv, rfl⟩
    obtain ⟨hw, h17, rfl⟩ := (emit_running (running hu)).mp hv
    exact ⟨u, hu, hw, h17, rfl⟩
  · rintro ⟨u, hu, hw, h17, rfl⟩
    exact ⟨u, hu, _, (emit_running (running hu)).mpr ⟨hw, h17, rfl⟩, rfl⟩

/-- What PIX and SYM perform: LZW_STEP, and the symbol counted (R174, R175). -/
theorem supplySymbol_eq_next {c : ColorIndex} {s t : State} :
    supplySymbol c s = .next t ↔ ∃ u, lzwStep c s = .next u ∧ t = countSymbol u := by
  unfold supplySymbol
  rw [andThen_eq_next]
  simp only [Host.Outcome.next.injEq, eq_comm]

/-! ### Codes -/

/-- CODEOF is defined exactly on coded phrases (R98). -/
theorem codeOf_isSome {d : Dict} {p : Phrase} (hp : p ≠ [])
    (h : p.length = 1 ∨ ∃ c, Dict.read d p = some c) : ∃ c, codeOf d p = some c := by
  match p, hp with
  | [s], _ => exact ⟨_, rfl⟩
  | s :: t :: rest, _ =>
    rcases h with h | h
    · simp at h
    · exact h

theorem codeOf_long {d : Dict} {p : Phrase} (h : 2 ≤ p.length) : codeOf d p = Dict.read d p := by
  match p with
  | [] => simp at h
  | [_] => simp at h
  | _ :: _ :: _ => rfl

/-! ### What the host reads -/

theorem outRead_eq_some {s : State} {i : Nat} {b : Byte} :
    outRead s i = some b ↔ ∃ h : i < s.out.length, s.out[i] = b :=
  List.getElem?_eq_some_iff

theorem outRead_eq_none {s : State} {i : Nat} : outRead s i = none ↔ s.out.length ≤ i :=
  List.getElem?_eq_none_iff

end Sys2Proof.Machine
end

