-- ==== Sys2Proof/Laws/Commands.lean ====
section
/-! SUPPORT. The commands over the common execution rule: when each is performed, and how it raises. -/

namespace Sys2Proof.Machine

/-! ### The own checks (step 4 of R170) -/

theorem dimensionsCheck_raises {w h : BitVec 16} (hz : w = 0 ∨ h = 0) :
    dimensionsCheck w h = some .invalidDimensions := if_pos hz

theorem dimensionsCheck_passes {w h : BitVec 16} (hz : w ≠ 0 ∧ h ≠ 0) :
    dimensionsCheck w h = none :=
  if_neg fun h' => h'.elim hz.1 hz.2

theorem dimensionsCheck_eq_some {w h : BitVec 16} {cause : FaultCause} :
    dimensionsCheck w h = some cause ↔ cause = .invalidDimensions ∧ (w = 0 ∨ h = 0) := by
  unfold dimensionsCheck
  split <;> rename_i hz
  · simp only [Option.some.injEq, hz, and_true]
    exact eq_comm
  · simp only [reduceCtorEq, hz, and_false]

theorem pixelCountCheck_eq_some {s : State} {cause : FaultCause} :
    pixelCountCheck s = some cause ↔
      cause = .pixelCountMismatch ∧ s.symCount.toNat ≠ s.width.toNat * s.height.toNat := by
  unfold pixelCountCheck pixelCount
  split <;> rename_i hz
  · simp only [Option.some.injEq, hz, ne_eq, not_false_eq_true, and_true]
    exact eq_comm
  · simp [hz]

theorem pixelCountCheck_passes {s : State}
    (h : s.symCount.toNat = s.width.toNat * s.height.toNat) : pixelCountCheck s = none :=
  if_neg fun h' => h' h

@[simp] theorem noCheck_eq (s : State) : noCheck s = none := rfl

/-! ### What a cause writes (R201) -/

@[simp] theorem code_illegalCommand : FaultCause.illegalCommand.code = 1 := rfl
@[simp] theorem code_sequenceError : FaultCause.sequenceError.code = 2 := rfl
@[simp] theorem code_invalidDimensions : FaultCause.invalidDimensions.code = 3 := rfl
@[simp] theorem code_pixelCountMismatch : FaultCause.pixelCountMismatch.code = 4 := rfl
@[simp] theorem code_dictionaryOverflow : FaultCause.dictionaryOverflow.code = 5 := rfl

theorem code_ne_zero (cause : FaultCause) : cause.code ≠ 0 := by cases cause <;> decide

/-! ### Legality (R170 step 3) -/

@[simp] theorem running_idle : LzState.idle.running = false := rfl
@[simp] theorem running_empty : LzState.empty.running = true := rfl
@[simp] theorem running_accumulating : LzState.accumulating.running = true := rfl
@[simp] theorem running_flushed : LzState.flushed.running = false := rfl

theorem ne_flushed_of_running {z : LzState} (h : z.running = true) : z ≠ .flushed := by
  rintro rfl
  cases h

@[simp] theorem legalIn_cfgdim (w h : BitVec 16) (z : LzState) : legalIn (.cfgdim w h) z = true := rfl
@[simp] theorem legalIn_cfgdly (d : BitVec 16) (z : LzState) : legalIn (.cfgdly d) z = true := rfl
@[simp] theorem legalIn_start (z : LzState) : legalIn .start z = true := rfl
@[simp] theorem legalIn_pix (r g b a : Byte) (z : LzState) :
    legalIn (.pix r g b a) z = z.running := rfl
@[simp] theorem legalIn_sym (c : ColorIndex) (z : LzState) : legalIn (.sym c) z = z.running := rfl
@[simp] theorem legalIn_flush (z : LzState) : legalIn .flush z = z.running := rfl
@[simp] theorem legalIn_save (z : LzState) : legalIn .save z = z.running := rfl

/-! ### Each command as an instance of the common rule -/

theorem exec_cfgdim (w h : BitVec 16) (s : State) :
    exec (.cfgdim w h) s = execute (.cfgdim w h) (fun _ => dimensionsCheck w h)
      (fun s => .next (setDimensions w h s)) s := rfl

theorem exec_cfgdly (d : BitVec 16) (s : State) :
    exec (.cfgdly d) s = execute (.cfgdly d) noCheck (fun s => .next (setDelay d s)) s := rfl

theorem exec_start (s : State) :
    exec .start s = execute .start noCheck
      (fun s => andThen (lzwInit s) fun s1 => .next (clearResult s1)) s := rfl

theorem exec_flush (s : State) :
    exec .flush s = execute .flush noCheck
      (fun s => andThen (lzwEnd s) fun s1 => .next (deliverStream s1)) s := rfl

theorem exec_save (s : State) :
    exec .save s = execute .save pixelCountCheck
      (fun s => andThen (lzwEnd s) fun s1 => .next (deliverFile s1)) s := rfl

/-- PIX and SYM are one command over the symbol they supply (R174). -/
theorem exec_supplies {i : Instr} {c : ColorIndex} (hi : Supplies i c) (s : State) :
    exec i s = execute i (overflowCheck c) (supplySymbol c) s := by
  rcases hi with rfl | ⟨r, g, b, a, rfl, rfl⟩ <;> rfl

theorem legalIn_supplies {i : Instr} {c : ColorIndex} (hi : Supplies i c) (z : LzState) :
    legalIn i z = z.running := by
  rcases hi with rfl | ⟨r, g, b, a, rfl, rfl⟩ <;> rfl

/-- A symbol that does not overflow is supplied. -/
theorem exec_supplies_performs {i : Instr} {c : ColorIndex} {s : State} (hi : Supplies i c)
    (h : Ready s) (hc : overflowCheck c s = none) : exec i s = supplySymbol c s := by
  rw [exec_supplies hi, execute_performs h.1 ((legalIn_supplies hi _).trans h.2) hc]

/-- Every command is one of CFGDIM, CFGDLY, START, a symbol, FLUSH, SAVE. -/
theorem instr_cases (i : Instr) :
    (∃ w h, i = .cfgdim w h) ∨ (∃ d, i = .cfgdly d) ∨ i = .start ∨ (∃ c, Supplies i c) ∨
      i = .flush ∨ i = .save := by
  cases i with
  | cfgdim w h => exact .inl ⟨w, h, rfl⟩
  | cfgdly d => exact .inr (.inl ⟨d, rfl⟩)
  | start => exact .inr (.inr (.inl rfl))
  | pix r g b a => exact .inr (.inr (.inr (.inl ⟨_, .inr ⟨r, g, b, a, rfl, rfl⟩⟩)))
  | sym c => exact .inr (.inr (.inr (.inl ⟨c, .inl rfl⟩)))
  | flush => exact .inr (.inr (.inr (.inr (.inl rfl))))
  | save => exact .inr (.inr (.inr (.inr (.inr rfl))))

/-- A frozen block discards every command (step 1 of R170). -/
theorem exec_frozen (i : Instr) {s : State} (h : s.fault ≠ 0) : exec i s = .next s := by
  rcases instr_cases i with ⟨w, y, rfl⟩ | ⟨d, rfl⟩ | rfl | ⟨c, hc⟩ | rfl | rfl
  · rw [exec_cfgdim, execute_frozen h]
  · rw [exec_cfgdly, execute_frozen h]
  · rw [exec_start, execute_frozen h]
  · rw [exec_supplies hc, execute_frozen h]
  · rw [exec_flush, execute_frozen h]
  · rw [exec_save, execute_frozen h]

end Sys2Proof.Machine
end

