-- ==== Sys2Proof/Laws/Width.lean ====
section
/-! SUPPORT. The code width (R67): the least width, at least 5, that a code fits. -/

namespace Sys2Proof.Machine

theorem bitlen_le_iff {n w : Nat} (hn : n ≠ 0) : bitlen n ≤ w ↔ n < 2 ^ w := by
  rw [bitlen, Nat.succ_le_iff, Nat.log2_lt hn]

theorem lt_two_pow_bitlen (n : Nat) : n < 2 ^ bitlen n := Nat.lt_log2_self

/-- "the step is always exactly +1": the width after one more insertion (R67, R124). -/
theorem max_bitlen_succ (n : Nat) :
    max 5 (bitlen (n + 1)) =
      if 2 ^ max 5 (bitlen n) ≤ n + 1 then max 5 (bitlen n) + 1 else max 5 (bitlen n) := by
  have hlt : n < 2 ^ max 5 (bitlen n) :=
    (lt_two_pow_bitlen n).trans_le (Nat.pow_le_pow_right (by omega) (le_max_right _ _))
  have hmono : bitlen n ≤ bitlen (n + 1) := by
    by_cases hn : n = 0
    · subst hn; decide
    · exact (bitlen_le_iff hn).mpr (Nat.lt_of_succ_lt (lt_two_pow_bitlen (n + 1)))
  split
  · next h =>
    have hup : bitlen (n + 1) ≤ max 5 (bitlen n) + 1 :=
      (bitlen_le_iff n.succ_ne_zero).mpr (by rw [Nat.pow_succ]; omega)
    have hdown : ¬bitlen (n + 1) ≤ max 5 (bitlen n) := by
      rw [bitlen_le_iff n.succ_ne_zero]; omega
    omega
  · next h =>
    have hup : bitlen (n + 1) ≤ max 5 (bitlen n) :=
      (bitlen_le_iff n.succ_ne_zero).mpr (by omega)
    omega

theorem dataWidth_eq (m : Nat) : dataWidth (m + 1) = max 5 (bitlen (m + 18)) := by
  rw [dataWidth, show 17 + (m + 1) = m + 18 by omega]

end Sys2Proof.Machine
end

