-- ==== Sys2Proof/Laws/Dictionary.lean ====
section
/-! SUPPORT. The dictionary invariant (R22): the empty dictionary has it, an insertion keeps it, and
under it every code fits the width. -/

namespace Sys2Proof.Machine

theorem countUp_toNat (n : BitVec 32) : (countUp n).toNat = min (n.toNat + 1) (2 ^ 32 - 1) := by
  simp only [countUp, BitVec.toNat_ofNat]
  exact Nat.mod_eq_of_lt (by omega)

/-- A bit below the old length is not touched by what is added above it (R105). -/
theorem testBit_add_low {a b n j : Nat} (ha : a < 2 ^ n) (hj : j < n) :
    (a + b * 2 ^ n).testBit j = a.testBit j := by
  rw [Nat.add_comm, Nat.mul_comm, Nat.testBit_two_pow_mul_add _ ha, if_pos hj]

/-- What is added above the old length is read there (R105). -/
theorem testBit_add_high {a b n j : Nat} (ha : a < 2 ^ n) :
    (a + b * 2 ^ n).testBit (n + j) = b.testBit j := by
  rw [Nat.add_comm, Nat.mul_comm, Nat.testBit_two_pow_mul_add _ ha, if_neg (by omega),
    Nat.add_sub_cancel_left]

/-- An insertion of an absent key leaves coded phrases coded. -/
theorem Coded.write {d : Dict} {k : Phrase} {c : Nat} {p : Phrase} (h : Coded d p)
    (absent : Dict.read d k = none) : Coded (Dict.write d k c) p := by
  refine h.imp id fun ⟨x, hx⟩ => ⟨x, ?_⟩
  rw [Dict.read_write_of_ne, hx]
  rintro rfl
  rw [absent] at hx
  cases hx

theorem Coded.length_pos {d : Dict} {n : Nat} {p : Phrase} (h : Coded d p) (hd : DictInv d n) :
    1 ≤ p.length := by
  rcases h with h | ⟨x, hx⟩
  · omega
  · have := hd.long _ _ hx
    omega

theorem DictInv.first_le {d : Dict} {n : Nat} (h : DictInv d n) : 18 ≤ n := by
  have := h.entries
  omega

theorem DictInv.nil : DictInv [] 18 := by
  constructor <;> simp

/-- The insertion of the mismatch branch keeps the dictionary invariant (R22, R123). -/
theorem DictInv.write {d : Dict} {n : Nat} {p : Phrase} {c : ColorIndex} (h : DictInv d n)
    (hp : Coded d p) (absent : Dict.read d (p ++ [c]) = none) :
    DictInv (Dict.write d (p ++ [c]) n) (n + 1) := by
  have hn := h.first_le
  have hlen := hp.length_pos h
  have hne : ∀ {q x}, Dict.read d q = some x → p ++ [c] ≠ q := by
    rintro q x hq rfl
    rw [absent] at hq
    cases hq
  constructor
  · intro x
    constructor
    · rintro ⟨q, hq⟩
      rw [Dict.read_write] at hq
      split at hq
      · cases hq; omega
      · have := (h.codes x).mp ⟨q, hq⟩
        omega
    · rintro ⟨h1, h2⟩
      by_cases hx : x = n
      · subst hx
        exact ⟨_, Dict.read_write_self _ _ _⟩
      · obtain ⟨q, hq⟩ := (h.codes x).mpr ⟨h1, by omega⟩
        exact ⟨q, by rw [Dict.read_write_of_ne _ _ (hne hq), hq]⟩
  · intro q r x hq hr
    rw [Dict.read_write] at hq hr
    split at hq <;> split at hr
    · simp_all
    · cases hq
      have := (h.codes _).mp ⟨r, hr⟩
      omega
    · cases hr
      have := (h.codes _).mp ⟨q, hq⟩
      omega
    · exact h.injective q r x hq hr
  · rw [Dict.length_write _ absent, ← h.entries]
  · intro q x hq
    rw [Dict.read_write] at hq
    split at hq
    · rename_i e
      subst e
      simpa using hlen
    · exact h.long _ _ hq
  · intro q x hq
    rw [Dict.read_write] at hq
    split at hq
    · rename_i e
      subst e
      rw [List.dropLast_concat]
      exact hp.write absent
    · exact (h.prefixClosed _ _ hq).write absent

/-- NEXT_CODE fits CUR_WIDTH (R22 item 5). -/
theorem BlockInv.nextCode_fits {s : State} (h : BlockInv s) : s.nextCode < 2 ^ s.curWidth := by
  rw [h.width]
  exact (lt_two_pow_bitlen _).trans_le (Nat.pow_le_pow_right (by omega) (le_max_right _ _))

/-- Every code CODEOF answers is below NEXT_CODE (R22 items 1 and 4). -/
theorem BlockInv.codeOf_lt {s : State} (h : BlockInv s) {p : Phrase} {k : Nat}
    (hk : codeOf s.dict p = some k) : k < s.nextCode := by
  have hn := h.dict.first_le
  match p with
  | [] => cases hk
  | [c] =>
    cases hk
    omega
  | _ :: _ :: _ => exact ((h.dict.codes k).mp ⟨_, hk⟩).2

end Sys2Proof.Machine
end

