-- ==== Sys2Proof/Laws/PerInstr.lean ====
section
/-! SUPPORT. Laws of every command as syntax, one lemma per constructor. -/

namespace Sys2Proof.Laws.EncodesInRow

/-- The encoding of a command is accepted by its own row of the opcode table (R60, R61). -/
def Statement (i : Instr) : Prop :=
  i.wellFormed = true ∧ i.row ∈ opcodeTable ∧ i.row.accepts (encode i) = true

/-- A word whose bits under the mask are those of the pattern is accepted. -/
theorem accepts_of_bits {r : Row} {w : CmdWord}
    (h : ∀ k, k < 40 → (w.getLsbD k && r.mask.getLsbD k) = r.pattern.getLsbD k) :
    r.accepts w = true := by
  refine beq_iff_eq.mpr (BitVec.eq_of_getLsbD_eq fun k hk => ?_)
  rw [BitVec.getLsbD_and]
  exact h k hk

theorem cfgdim (width height : BitVec 16) : Statement (.cfgdim width height) := by
  refine ⟨rfl, by simp [Instr.row, opcodeTable], accepts_of_bits fun k hk => ?_⟩
  interval_cases k <;> simp [Instr.row, rowCfgdim, encode, CmdWord.field]

theorem cfgdly (delayMs : BitVec 16) : Statement (.cfgdly delayMs) := by
  refine ⟨rfl, by simp [Instr.row, opcodeTable], accepts_of_bits fun k hk => ?_⟩
  interval_cases k <;> simp [Instr.row, rowCfgdly, encode, CmdWord.field]

theorem start : Statement .start :=
  ⟨rfl, by simp [Instr.row, opcodeTable], by decide⟩

theorem pix (red green blue opacity : Byte) : Statement (.pix red green blue opacity) := by
  refine ⟨rfl, by simp [Instr.row, opcodeTable], accepts_of_bits fun k hk => ?_⟩
  interval_cases k <;> simp [Instr.row, rowPix, encode, CmdWord.field]

theorem sym (s : ColorIndex) : Statement (.sym s) := by
  refine ⟨rfl, by simp [Instr.row, opcodeTable], accepts_of_bits fun k hk => ?_⟩
  interval_cases k <;> simp [Instr.row, rowSym, encode, CmdWord.field]

theorem flush : Statement .flush :=
  ⟨rfl, by simp [Instr.row, opcodeTable], by decide⟩

theorem save : Statement .save :=
  ⟨rfl, by simp [Instr.row, opcodeTable], by decide⟩

end Sys2Proof.Laws.EncodesInRow
end

