-- ==== Sys2Proof/Laws/Encoding.lean ====
section
/-! SUPPORT. When a word matches a row of the opcode table (R61), in numbers: every mask of the table
selects the bits from some bit upward, so a word matches when it agrees with the pattern there. -/

namespace Sys2Proof

/-- The mask that selects the bits from `n` upward. -/
theorem and_high_mask_toNat (w : CmdWord) (n : Nat) :
    (w &&& BitVec.allOnes 40 <<< n).toNat = w.toNat / 2 ^ n * 2 ^ n := by
  have h : (w &&& BitVec.allOnes 40 <<< n) = w >>> n <<< n := by
    refine BitVec.eq_of_getLsbD_eq fun k hk => ?_
    rw [BitVec.getLsbD_and, BitVec.getLsbD_shiftLeft, BitVec.getLsbD_allOnes,
      BitVec.getLsbD_shiftLeft, BitVec.getLsbD_ushiftRight]
    by_cases hn : k < n
    · simp [hn]
    · simp [hn, hk, show k - n < 40 by omega, show n + (k - n) = k by omega]
  have hlt : w.toNat / 2 ^ n * 2 ^ n < 2 ^ 40 := (Nat.div_mul_le_self _ _).trans_lt w.isLt
  rw [h, BitVec.toNat_shiftLeft, BitVec.toNat_ushiftRight, Nat.shiftRight_eq_div_pow,
    Nat.shiftLeft_eq, Nat.mod_eq_of_lt hlt]

/-- A row whose mask is the bits from `n` upward accepts the words that agree with its pattern
there. -/
theorem Row.accepts_iff {r : Row} {n p : Nat} (hm : r.mask = BitVec.allOnes 40 <<< n)
    (hp : r.pattern.toNat = p * 2 ^ n) (w : CmdWord) :
    r.accepts w = true ↔ w.toNat / 2 ^ n = p := by
  rw [Row.accepts, beq_iff_eq, ← BitVec.toNat_inj, hm, and_high_mask_toNat, hp]
  exact Nat.mul_left_inj (by positivity)

theorem rowCfgdim_accepts (w : CmdWord) : rowCfgdim.accepts w = true ↔ w.toNat / 2 ^ 32 = 1 :=
  Row.accepts_iff (by decide) (by decide) w

theorem rowCfgdly_accepts (w : CmdWord) : rowCfgdly.accepts w = true ↔ w.toNat / 2 ^ 16 = 2 * 2 ^ 16 :=
  Row.accepts_iff (by decide) (by decide) w

theorem rowStart_accepts (w : CmdWord) : rowStart.accepts w = true ↔ w.toNat / 2 ^ 0 = 3 * 2 ^ 32 :=
  Row.accepts_iff (by decide) (by decide) w

theorem rowPix_accepts (w : CmdWord) : rowPix.accepts w = true ↔ w.toNat / 2 ^ 32 = 4 :=
  Row.accepts_iff (by decide) (by decide) w

theorem rowSym_accepts (w : CmdWord) : rowSym.accepts w = true ↔ w.toNat / 2 ^ 4 = 5 * 2 ^ 28 :=
  Row.accepts_iff (by decide) (by decide) w

theorem rowFlush_accepts (w : CmdWord) : rowFlush.accepts w = true ↔ w.toNat / 2 ^ 0 = 6 * 2 ^ 32 :=
  Row.accepts_iff (by decide) (by decide) w

theorem rowSave_accepts (w : CmdWord) : rowSave.accepts w = true ↔ w.toNat / 2 ^ 0 = 7 * 2 ^ 32 :=
  Row.accepts_iff (by decide) (by decide) w

end Sys2Proof
end

