-- ==== Sys2Proof/Laws/Inversion.lean ====
section
/-! SUPPORT. Said once: everything a command can do. Frames and invariants are read off from
`exec_cases` instead of unfolding the meanings. -/

namespace Sys2Proof.Machine

/-- When a command raises which cause (R203 to R206). -/
inductive Raises (s : State) : Instr → FaultCause → Prop where
  | sequence {i : Instr} (needs : NeedsEncode i) (notRunning : s.lzState.running = false) :
    Raises s i .sequenceError
  | dimensions {w h : BitVec 16} (zero : w = 0 ∨ h = 0) : Raises s (.cfgdim w h) .invalidDimensions
  | count (running : s.lzState.running = true)
    (differs : s.symCount.toNat ≠ s.width.toNat * s.height.toNat) :
    Raises s .save .pixelCountMismatch
  | overflow {i : Instr} {c : ColorIndex} (supplies : Supplies i c)
    (running : s.lzState.running = true) (buffered : s.phrase ≠ [])
    (absent : Dict.read s.dict (s.phrase ++ [c]) = none)
    (full : 2 ^ s.curWidth ≤ s.nextCode + 1) (limit : s.params.maxWidth = .bounded s.curWidth) :
    Raises s i .dictionaryOverflow

/-- The state a mismatch step leaves, the symbol counted (R123, R174, R175). -/
def afterMismatch (c : ColorIndex) (code : Nat) (s : State) : State :=
  { s with
    acc := s.acc + (code <<< s.nbits), nbits := s.nbits + s.curWidth
    dict := Dict.write s.dict (s.phrase ++ [c]) s.nextCode
    nextCode := s.nextCode + 1
    curWidth := if 2 ^ s.curWidth ≤ s.nextCode + 1 then s.curWidth + 1 else s.curWidth
    phrase := [c], symCount := countUp s.symCount }

/-- The state LZW_END leaves, given the codes it pushed (R125). -/
def afterEnd (codes : List Nat) (s : State) : State :=
  { codes.foldl (fun s c => pushBits c s.curWidth s) s with lzState := .flushed }

/-- The codes LZW_END pushes: the phrase's, if there is a phrase, then EOI (R125, R126). -/
inductive EndCodes (s : State) : List Nat → Prop where
  | eoi (empty : s.phrase = []) : EndCodes s [17]
  | phrase {code : Nat} (buffered : s.phrase ≠ []) (isCode : codeOf s.dict s.phrase = some code)
    (fits : code < 2 ^ s.curWidth) : EndCodes s [code, 17]

/-- What a performed command leaves. -/
inductive Performed (s : State) : Instr → State → Prop where
  | cfgdim {w h : BitVec 16} (nonzero : w ≠ 0 ∧ h ≠ 0) :
    Performed s (.cfgdim w h) (setDimensions w h s)
  | cfgdly {d : BitVec 16} : Performed s (.cfgdly d) (setDelay d s)
  | start : Performed s .start (clearResult
      { freshEntities s with curWidth := 5, acc := 16, nbits := 5, lzState := .empty })
  | first {i : Instr} {c : ColorIndex} (supplies : Supplies i c)
    (running : s.lzState.running = true) (empty : s.phrase = []) :
    Performed s i (countSymbol (lzwFirst c s))
  | known {i : Instr} {c : ColorIndex} {k : Nat} (supplies : Supplies i c)
    (running : s.lzState.running = true) (buffered : s.phrase ≠ [])
    (present : Dict.read s.dict (s.phrase ++ [c]) = some k) :
    Performed s i (countSymbol (lzwMatch c s))
  | mismatch {i : Instr} {c : ColorIndex} {code : Nat} (supplies : Supplies i c)
    (running : s.lzState.running = true) (buffered : s.phrase ≠ [])
    (absent : Dict.read s.dict (s.phrase ++ [c]) = none)
    (roomy : s.nextCode + 1 < 2 ^ s.curWidth ∨ s.params.maxWidth ≠ .bounded s.curWidth)
    (isCode : codeOf s.dict s.phrase = some code) (positive : 1 ≤ s.curWidth)
    (fits : code < 2 ^ s.curWidth) :
    Performed s i (afterMismatch c code s)
  | flush {codes : List Nat} (running : s.lzState.running = true) (ended : EndCodes s codes)
    (positive : 1 ≤ s.curWidth) (fits : 17 < 2 ^ s.curWidth) :
    Performed s .flush (deliverStream (afterEnd codes s))
  | save {codes : List Nat} (running : s.lzState.running = true)
    (count : s.symCount.toNat = s.width.toNat * s.height.toNat) (ended : EndCodes s codes)
    (positive : 1 ≤ s.curWidth) (fits : 17 < 2 ^ s.curWidth) :
    Performed s .save (deliverFile (afterEnd codes s))

theorem lzwEnd_cases {s t : State} (hs : s.lzState.running = true) (h : lzwEnd s = .next t) :
    ∃ codes, EndCodes s codes ∧ 1 ≤ s.curWidth ∧ 17 < 2 ^ s.curWidth ∧ t = afterEnd codes s := by
  have hs := ne_flushed_of_running hs
  obtain ⟨u, hu, hw, h17, rfl⟩ := (lzwEnd_eq_next hs).mp h
  rcases (emitPhrase_eq_next hs).mp hu with ⟨hp, rfl⟩ | ⟨hp, code, hc, hw', hv, rfl⟩
  · exact ⟨[17], .eoi hp, hw, h17, rfl⟩
  · exact ⟨[code, 17], .phrase hp hc hv, hw', h17, rfl⟩

theorem lzwEnd_of_codes {s : State} {codes : List Nat} (hs : s.lzState.running = true)
    (h : EndCodes s codes) (hw : 1 ≤ s.curWidth) (h17 : 17 < 2 ^ s.curWidth) :
    lzwEnd s = .next (afterEnd codes s) := by
  have hs := ne_flushed_of_running hs
  cases h with
  | eoi hp =>
    exact (lzwEnd_eq_next hs).mpr ⟨s, (emitPhrase_eq_next hs).mpr (.inl ⟨hp, rfl⟩), hw, h17, rfl⟩
  | phrase hp hc hv =>
    exact (lzwEnd_eq_next hs).mpr ⟨_, (emitPhrase_eq_next hs).mpr (.inr ⟨hp, _, hc, hw, hv, rfl⟩), hw, h17, rfl⟩

/-- What a symbol does when it does not overflow. -/
theorem supplySymbol_cases {i : Instr} {c : ColorIndex} {s t : State} (hi : Supplies i c)
    (hrun : s.lzState.running = true) (hc : overflowCheck c s = none)
    (h : supplySymbol c s = .next t) : Performed s i t := by
  obtain ⟨u, hu, rfl⟩ := supplySymbol_eq_next.mp h
  rcases lzwStep_cases hu with ⟨hp, rfl⟩ | ⟨hp, ⟨k, hr⟩, rfl⟩ | ⟨hp, hr, hm⟩
  · exact .first hi hrun hp
  · exact .known hi hrun hp hr
  · have hroom : s.nextCode + 1 < 2 ^ s.curWidth ∨ s.params.maxWidth ≠ .bounded s.curWidth := by
      by_contra hno
      rw [not_or, Nat.not_lt, not_not] at hno
      rw [overflowCheck_eq_some.mpr ⟨rfl, hp, hr, hno.1, hno.2⟩] at hc
      cases hc
    obtain ⟨code, hcode, hw, hv, ⟨hg, rfl⟩ | ⟨hg, -, rfl⟩⟩ :=
      (lzwMismatch_eq_next (ne_flushed_of_running hrun)).mp hm
    · have := Performed.mismatch hi hrun hp hr hroom hcode hw hv
      rw [afterMismatch, if_neg (by omega)] at this
      exact this
    · have := Performed.mismatch hi hrun hp hr hroom hcode hw hv
      rw [afterMismatch, if_pos hg] at this
      exact this

/-- Everything a command can do: a frozen block discards it, or it raises a fault and changes nothing
else, or it is performed. -/
theorem exec_cases {i : Instr} {s t : State} (h : exec i s = .next t) :
    (s.fault ≠ 0 ∧ t = s) ∨
    (s.fault = 0 ∧ ∃ cause, Raises s i cause ∧ t = raise cause (encode i) s) ∨
    (s.fault = 0 ∧ Performed s i t) := by
  rcases instr_cases i with ⟨w, y, rfl⟩ | ⟨d, rfl⟩ | rfl | ⟨c, hc⟩ | rfl | rfl
  · rw [exec_cfgdim] at h
    rcases execute_cases h with h | ⟨-, h, -⟩ | ⟨hs, -, cause, h, ht⟩ | ⟨hs, -, h, ht⟩
    · exact .inl h
    · cases h
    · obtain ⟨rfl, hz⟩ := dimensionsCheck_eq_some.mp h
      exact .inr (.inl ⟨hs, _, .dimensions hz, ht⟩)
    · have hz : w ≠ 0 ∧ y ≠ 0 := by
        by_contra hz
        rw [dimensionsCheck_raises (by tauto)] at h
        cases h
      cases ht
      exact .inr (.inr ⟨hs, .cfgdim hz⟩)
  · rw [exec_cfgdly] at h
    rcases execute_cases h with h | ⟨-, h, -⟩ | ⟨-, -, cause, h, -⟩ | ⟨hs, -, -, ht⟩
    · exact .inl h
    · cases h
    · cases h
    · cases ht
      exact .inr (.inr ⟨hs, .cfgdly⟩)
  · rw [exec_start] at h
    rcases execute_cases h with h | ⟨-, h, -⟩ | ⟨-, -, cause, h, -⟩ | ⟨hs, -, -, ht⟩
    · exact .inl h
    · cases h
    · cases h
    · rw [lzwInit_next, andThen_next] at ht
      cases ht
      exact .inr (.inr ⟨hs, .start⟩)
  · rw [exec_supplies hc] at h
    rcases execute_cases h with h | ⟨hs, hl, ht⟩ | ⟨hs, hl, cause, h, ht⟩ | ⟨hs, hl, h, ht⟩
    · exact .inl h
    · rw [legalIn_supplies hc] at hl
      exact .inr (.inl ⟨hs, _, .sequence (.inl ⟨c, hc⟩) hl, ht⟩)
    · rw [legalIn_supplies hc] at hl
      obtain ⟨rfl, hp, hr, hn, hm⟩ := overflowCheck_eq_some.mp h
      exact .inr (.inl ⟨hs, _, .overflow hc hl hp hr hn hm, ht⟩)
    · rw [legalIn_supplies hc] at hl
      exact .inr (.inr ⟨hs, supplySymbol_cases hc hl h ht⟩)
  · rw [exec_flush] at h
    rcases execute_cases h with h | ⟨hs, hl, ht⟩ | ⟨-, -, cause, h, -⟩ | ⟨hs, hl, -, ht⟩
    · exact .inl h
    · exact .inr (.inl ⟨hs, _, .sequence (.inr (.inl rfl)) hl, ht⟩)
    · cases h
    · obtain ⟨u, hu, ht⟩ := andThen_eq_next.mp ht
      obtain ⟨codes, hcodes, hw, h17, rfl⟩ := lzwEnd_cases hl hu
      cases ht
      exact .inr (.inr ⟨hs, .flush hl hcodes hw h17⟩)
  · rw [exec_save] at h
    rcases execute_cases h with h | ⟨hs, hl, ht⟩ | ⟨hs, hl, cause, h, ht⟩ | ⟨hs, hl, h, ht⟩
    · exact .inl h
    · exact .inr (.inl ⟨hs, _, .sequence (.inr (.inr rfl)) hl, ht⟩)
    · obtain ⟨rfl, hd⟩ := pixelCountCheck_eq_some.mp h
      exact .inr (.inl ⟨hs, _, .count hl hd, ht⟩)
    · have hcount : s.symCount.toNat = s.width.toNat * s.height.toNat := by
        by_contra hne
        rw [pixelCountCheck_eq_some.mpr ⟨rfl, hne⟩] at h
        cases h
      obtain ⟨u, hu, ht⟩ := andThen_eq_next.mp ht
      obtain ⟨codes, hcodes, hw, h17, rfl⟩ := lzwEnd_cases hl hu
      cases ht
      exact .inr (.inr ⟨hs, .save hl hcount hcodes hw h17⟩)

/-- Everything a step can do: wait, execute a word, take the reset event, or answer a read. -/
theorem step_cases {s t : State} (h : step s = .next t) :
    (s.input = [] ∧ t = s) ∨
    (∃ w rest, s.input = .command w :: rest ∧ presentWord w (takeCommand rest s) = .next t) ∨
    (∃ rest, s.input = .reset :: rest ∧ t = resetEvent (takeInput rest s)) ∨
    (∃ p v rest, s.input = .read p :: rest ∧ readPort p s = some v ∧
      t = { s with input := rest, reply := some v }) := by
  unfold step at h
  split at h
  · rename_i hin
    cases h
    exact .inl ⟨hin, rfl⟩
  · rename_i e rest hin
    cases e with
    | command w => exact .inr (.inl ⟨w, rest, hin, h⟩)
    | reset =>
      cases h
      exact .inr (.inr (.inl ⟨rest, hin, rfl⟩))
    | read p =>
      simp only [serve, hostRead] at h
      split at h
      · rename_i v hv
        cases h
        refine .inr (.inr (.inr ⟨p, v, rest, hin, ?_, rfl⟩))
        rw [← hv]
        cases p <;> rfl
      · cases h

/-- Everything presenting a word can do. -/
theorem presentWord_cases {w : CmdWord} {s t : State} (h : presentWord w s = .next t) :
    (∃ i, decode w = some i ∧ exec i s = .next t) ∨
    (decode w = none ∧ s.fault ≠ 0 ∧ t = s) ∨
    (decode w = none ∧ s.fault = 0 ∧ t = raise .illegalCommand w s) := by
  unfold presentWord at h
  split at h
  · rename_i i hi
    exact .inl ⟨i, hi, h⟩
  · rename_i hd
    unfold illegalCommand at h
    split at h <;> rename_i hf <;> cases h
    · exact .inr (.inl ⟨hd, hf, rfl⟩)
    · exact .inr (.inr ⟨hd, by simpa using hf, rfl⟩)

end Sys2Proof.Machine
end

