-- ==== Sys2Proof/Machine/Assembler.lean ====
section
/-! DEFINITION. The text of assembly programs (R75, R76): characters to source lines to command words.
No part of the block: "Used only to write test programs" (92_eei_decisions.md D21). Text that is not
of the syntax, or has an operand out of range, has no words. -/

namespace Sys2Proof.Machine

/-- What a line is made of: words (mnemonics and numbers), commas, and the parentheses of `PIXS`. -/
inductive Token where
  | word (chars : List Char)
  | comma
  | opening
  | closing
deriving DecidableEq, Repr

/-- The word being read, if it has a character, ahead of the tokens behind it. -/
def closeWord (read : List Char × List Token) : List Token :=
  if read.1 = [] then read.2 else .word read.1 :: read.2

/-- One character, read from the right: blanks separate, the punctuation stands for itself, any other
character belongs to a word. -/
def readChar (c : Char) (read : List Char × List Token) : List Char × List Token :=
  if c = ' ' ∨ c = '\t' ∨ c = '\r' then ([], closeWord read)
  else if c = ',' then ([], .comma :: closeWord read)
  else if c = '(' then ([], .opening :: closeWord read)
  else if c = ')' then ([], .closing :: closeWord read)
  else (c :: read.1, read.2)

/-- The tokens of a line; "`;` starting a comment" (R75; how blanks stand is DESIGN CHOICE, log entry
14). -/
def tokens (line : List Char) : List Token :=
  closeWord ((line.takeWhile fun c => c ≠ ';').foldr readChar ([], []))

/-- The value of a digit, if it is one of the base. -/
def digitValue (base : Nat) (c : Char) : Option Nat :=
  let value :=
    if '0' ≤ c ∧ c ≤ '9' then c.toNat - 48
    else if 'a' ≤ c ∧ c ≤ 'f' then c.toNat - 87
    else if 'A' ≤ c ∧ c ≤ 'F' then c.toNat - 55
    else base
  if value < base then some value else none

/-- Digits behind those already read. -/
def digits (base : Nat) : List Char → Nat → Option Nat
  | [], value => some value
  | c :: rest, value => (digitValue base c).bind fun d => digits base rest (base * value + d)

/-- "decimal or `0x` hexadecimal" (R75). -/
def number : List Char → Option Nat
  | [] => none
  | '0' :: 'x' :: d :: rest => digits 16 (d :: rest) 0
  | c :: rest => digits 10 (c :: rest) 0

/-- "operands … separated by commas" (R75). -/
def commaOperands : List Token → Option (List Nat)
  | [.word w] => (number w).map fun n => [n]
  | .word w :: .comma :: rest =>
    (number w).bind fun n => (commaOperands rest).map fun more => n :: more
  | _ => none

/-- The operands of `SYMS` and `ENCODE`, which stand without commas (R76). No operand at all
is the empty list: for `ENCODE` R179 and R127 have that case, for `SYMS`, whose table row shows one
symbol at least, it is the model's choice, with no words (DESIGN CHOICE, log entry 14). -/
def spacedOperands : List Token → Option (List Nat)
  | [] => some []
  | .word w :: rest => (number w).bind fun n => (spacedOperands rest).map fun more => n :: more
  | _ => none

/-- The tuples `(r,g,b,a)` of `PIXS` (R76). The table row shows one tuple at least; that `PIXS` may
stand with none, and then has no words, is the model's choice (DESIGN CHOICE, log entry 14). -/
def tupleOperands : List Token → Option (List AsmPixel)
  | [] => some []
  | .opening :: .word r :: .comma :: .word g :: .comma :: .word b :: .comma :: .word a :: .closing ::
      rest =>
    match number r, number g, number b, number a with
    | some red, some green, some blue, some opacity =>
      (tupleOperands rest).map fun more => ⟨red, green, blue, opacity⟩ :: more
    | _, _, _, _ => none
  | _ => none

/-- The source line with this mnemonic and these operands (R75, R76); "the mnemonic in capitals". -/
def sourceLine (mnemonic : List Char) (operands : List Token) : Option Asm :=
  if mnemonic = "CFGDIM".toList then
    match commaOperands operands with
    | some [width, height] => some (.cfgdim width height)
    | _ => none
  else if mnemonic = "CFGDLY".toList then
    match commaOperands operands with
    | some [delayMs] => some (.cfgdly delayMs)
    | _ => none
  else if mnemonic = "START".toList then if operands = [] then some .start else none
  else if mnemonic = "PIX".toList then
    match commaOperands operands with
    | some [red, green, blue, opacity] => some (.pix ⟨red, green, blue, opacity⟩)
    | _ => none
  else if mnemonic = "SYM".toList then
    match commaOperands operands with
    | some [s] => some (.sym s)
    | _ => none
  else if mnemonic = "FLUSH".toList then if operands = [] then some .flush else none
  else if mnemonic = "SAVE".toList then if operands = [] then some .save else none
  else if mnemonic = "ADD".toList then
    match commaOperands operands with
    | some [width, height, delayMs] => some (.add width height delayMs)
    | _ => none
  else if mnemonic = "SYMS".toList then (spacedOperands operands).map .syms
  else if mnemonic = "PIXS".toList then (tupleOperands operands).map .pixs
  else if mnemonic = "ENCODE".toList then (spacedOperands operands).map .encode
  else none

/-- The command words of one line: none at all for an empty line or a comment. -/
def assembleLine (line : List Char) : Option (List CmdWord) :=
  match tokens line with
  | [] => some []
  | .word mnemonic :: operands => (sourceLine mnemonic operands).bind Asm.assemble
  | _ => none

/-- "one command per line" (R75): the words of a program, if every line has words. -/
def assembleProgram (lines : List (List Char)) : Option (List CmdWord) :=
  (lines.mapM assembleLine).map List.flatten

end Sys2Proof.Machine
end

