-- ==== Sys2Proof/Tests/Slice0.lean ====
section
/-! SUPPORT. The model's own tests: the checks of WellFormed, words written out from the spec, one step
of each command against the vectors of spec/95_test_vectors.md (their ids stand in the comments), and
for every statement with hypotheses a state and operands that meet them. -/

namespace Sys2Proof.Tests

open Sys2Proof Sys2Proof.Machine

/-! ### WellFormed: a term of every form, one just inside and one just outside each check (R75) -/

theorem test_wellFormed_accepts :
    ([.cfgdim 65535 0, .cfgdly 65535, .start, .pix ⟨255, 255, 255, 255⟩, .sym 15, .flush, .save,
      .add 65535 65535 65535, .syms [0, 15], .pixs [⟨0, 0, 0, 255⟩], .encode []] : List Asm).all
      Asm.wellFormed = true := by decide

theorem test_wellFormed_refuses_halves :
    ([.cfgdim 65536 1, .cfgdim 1 65536, .cfgdly 65536, .add 65536 1 1, .add 1 65536 1,
      .add 1 1 65536] : List Asm).any Asm.wellFormed = false := by decide

theorem test_wellFormed_refuses_channels :
    ([.pix ⟨256, 0, 0, 0⟩, .pix ⟨0, 256, 0, 0⟩, .pix ⟨0, 0, 256, 0⟩, .pix ⟨0, 0, 0, 256⟩,
      .pixs [⟨0, 0, 0, 0⟩, ⟨0, 0, 0, 256⟩]] : List Asm).any Asm.wellFormed = false := by decide

theorem test_wellFormed_refuses_symbols :
    ([.sym 16, .syms [0, 16], .encode [15, 16]] : List Asm).any Asm.wellFormed = false := by decide

/-- What is not well formed has no words (R75). -/
theorem test_illFormed_has_no_words : (Asm.sym 16).assemble = none := by decide

/-- PR1's first two lines, and a line of each pseudo-instruction, assembled from their text. -/
theorem test_assembleProgram :
    assembleProgram ["; ADD 2, 1, 100".toList, "CFGDIM 2, 0x1            ; 0x0100010002".toList] =
      some [0x0100010002] ∧
    assembleLine "ADD 2, 1, 100".toList = some [0x0100010002, 0x0200000064, 0x0300000000] ∧
    assembleLine "PIXS (255,0,128,7) (0, 0, 0, 0)".toList = some [0x04FF008007, 0x0400000000] ∧
    assembleLine "ENCODE 15".toList = some [0x0300000000, 0x050000000F, 0x0600000000] := by decide

/-- Out of range, too many operands, and a mnemonic not in capitals. -/
theorem test_assembleLine_refuses :
    assembleLine "SYM 16".toList = none ∧ assembleLine "START 1".toList = none ∧
    assembleLine "save".toList = none := by decide

/-! ### Decoding words written out bit by bit from R60 (vectors E1 to E22) -/

theorem test_decode_cfgdim : decode 0b00000001_0000000000000001_0000000000000010 = some (.cfgdim 2 1) := by
  decide
theorem test_decode_cfgdim_e2 : decode 0x0100FA0140 = some (.cfgdim 320 250) := by decide
theorem test_decode_cfgdly : decode 0b00000010_0000000000000000_0000000001100100 = some (.cfgdly 100) := by
  decide
theorem test_decode_start : decode 0b00000011_00000000000000000000000000000000 = some .start := by decide
theorem test_decode_pix :
    decode 0b00000100_11111111_00000000_10000000_00000111 = some (.pix 255 0 128 7) := by decide
theorem test_decode_sym : decode 0b00000101_0000000000000000000000000000_1111 = some (.sym 15) := by decide
theorem test_decode_flush : decode 0b00000110_00000000000000000000000000000000 = some .flush := by decide
theorem test_decode_save : decode 0b00000111_00000000000000000000000000000000 = some .save := by decide
/-- E15 to E22. -/
theorem test_decode_illegal :
    ([0x0000000000, 0x0800000000, 0xFF00000000, 0x0300000001, 0x0500000010, 0x0200010000,
      0x0680000000, 0x0700000100] : List CmdWord).all (fun w => (decode w).isNone) = true := by decide
theorem test_decodeTableWord : decodeTableWord 40 0x050000000F = some (.sym 15) := by decide

/-! ### One step of each command -/

/-- What is observed of the next state, if there is one. -/
def after {α : Type} (r : Result) (f : State → α) : Option α :=
  match r with
  | .next s => some (f s)
  | .fault _ => none
  | .refused _ => none

/-- A running encode: the phrase, the dictionary and its codes, and the stream pushed so far. -/
def encoding (phrase : Phrase) (dict : Dict) (next width acc nbits : Nat) (count : BitVec 32) : State :=
  { State.reset with
    lzState := if phrase = [] then .empty else .accumulating
    phrase := phrase, dict := dict, nextCode := next, curWidth := width, acc := acc, nbits := nbits
    symCount := count }

/-- Z2: right after START. -/
def fresh : State := encoding [] [] 18 5 16 5 0

/-- E1. -/
theorem test_cfgdim : after (exec (.cfgdim 2 1) State.reset) (fun s => (s.width, s.height, s.fault)) =
    some (2, 1, 0) := by decide
/-- X6. -/
theorem test_cfgdim_zero : after (exec (.cfgdim 5 0) State.reset)
    (fun s => (s.width, s.height, s.fault, s.faultCmd)) = some (320, 250, 3, 0x0100000005) := by decide
/-- Z3. -/
theorem test_cfgdly : after (exec (.cfgdly 0) State.reset) (fun s => (s.delayMs, s.lzState)) =
    some (0, .idle) := by decide
/-- Z2. -/
theorem test_start : after (exec .start State.reset) (fun s => (s.lzState, s.acc, s.nbits)) =
    some (.empty, 16, 5) := by decide
/-- Z5. -/
theorem test_start_discards : after (exec .start (encoding [2] [([1, 2], 18)] 19 5 0x30 10 2))
    (fun s => (s.phrase, s.dict, s.nextCode, s.symCount)) = some ([], [], 18, 0) := by decide
/-- PR2. -/
theorem test_pix : after (exec (.pix 0 0 0 0) fresh) (fun s => (s.phrase, s.symCount, s.nbits)) =
    some ([15], 1, 5) := by decide
/-- PR1, the second PIX. -/
theorem test_pix_mismatch : after (exec (.pix 0 0 0 255) (encoding [0] [] 18 5 16 5 1))
    (fun s => (s.acc, s.nbits, Dict.read s.dict [0, 0], s.nextCode, s.phrase)) =
    some (0x10, 10, some 18, 19, [0]) := by decide
/-- PR3, the fifth symbol. -/
theorem test_sym : after (exec (.sym 1) (encoding [1, 2] [([1, 2], 18), ([2, 1], 19)] 20 5 0x830 15 4))
    (fun s => (s.acc, s.nbits, Dict.read s.dict [1, 2, 1], s.nextCode, s.phrase)) =
    some (0x90830, 20, some 20, 21, [1]) := by decide
/-- PR4, SYM 14: 13 is still emitted at width 5. -/
theorem test_sym_grows : after (exec (.sym 14) (encoding [13] [] 31 5 0x18B525073148310410 70 14))
    (fun s => (s.acc, s.nbits, s.curWidth, s.nextCode)) =
    some (0x358B525073148310410, 75, 6, 32) := by decide
/-- V4. -/
theorem test_flush : after (exec .flush (encoding [0] [([0, 0], 18)] 19 5 16 10 2))
    (fun s => (s.out, s.nbits, s.lzState)) = some ([0x10, 0x80, 0x08], 24, .flushed) := by decide
/-- X3. -/
theorem test_flush_idle : after (exec .flush State.reset) (fun s => (s.fault, s.faultCmd)) =
    some (2, 0x0600000000) := by decide
/-- PR2: the file of 85 bytes, from offset 61 on. -/
theorem test_save : after (exec .save { encoding [15] [] 18 5 16 5 1 with width := 1, height := 1 })
    (fun s => (s.out.length, s.out.drop 61)) =
    some (85, [0x21, 0xF9, 0x04, 0x01, 0x04, 0x00, 0x0F, 0x00, 0x2C, 0x00, 0x00, 0x00, 0x00, 0x01, 0x00,
      0x01, 0x00, 0x00, 0x04, 0x02, 0xF0, 0x45, 0x00, 0x3B]) := by decide
/-- X7. -/
theorem test_save_count : after (exec .save (encoding [0] [] 18 5 16 5 1))
    (fun s => (s.fault, s.nbits, s.phrase, s.out)) = some (4, 5, [0], []) := by decide

/-- X13: an illegal word faults while an encode runs. -/
theorem test_step_illegal : after (step (placeCommand 0x0500000010 fresh))
    (fun s => (s.fault, s.faultCmd, s.lzState, s.nbits)) = some (1, 0x0500000010, .empty, 5) := by decide
/-- The word the host places is fetched and run. -/
theorem test_withFetchWord : after (step (State.reset.withFetchWord 40 0x0200000064)) State.delayMs =
    some 100 := by decide
/-- B12, width 0 (log entry 6), and U18: what the encoder never does has no step. -/
theorem test_packer_refuses :
    pushWord 32 5 State.reset = .refused .wordDoesNotFit ∧
    pushWord 0 0 State.reset = .refused .wordDoesNotFit ∧
    pushWord 0 5 { State.reset with lzState := .flushed, acc := 0x230, nbits := 16 } =
      .refused .pushAfterFinish ∧
    setWidth 5 (encoding [13] [] 32 6 0 75 14) = .refused .widthNarrowed := ⟨rfl, rfl, rfl, rfl⟩
/-- GCE(65535), G5e. -/
theorem test_gce : gce 65535 = [0x21, 0xF9, 0x04, 0x01, 0x99, 0x19, 0x0F, 0x00] := by decide
/-- The first two entries of the default GCT, G4. -/
theorem test_gct : (gctBytes defaultGct).take 6 = [0x00, 0x00, 0x00, 0x00, 0x00, 0xFF] := by decide
/-- G9. -/
theorem test_subBlocks : subBlocks [0xF0, 0x45] = [0x02, 0xF0, 0x45, 0x00] := by decide
/-- V5c by the stream functions, which no command uses. -/
theorem test_encodeSymbols : encodeSymbols [1, 2, 1, 2, 1, 2, 1, 2] = [0x30, 0x08, 0x49, 0x45, 0x04] := by
  decide
/-- Section 5: the reader on V4b, where the code is the entry about to be added. -/
theorem test_readStream : readStream [0x10, 0xC8, 0x08] = some [0, 0, 0] := by decide

/-! ### States that meet the invariant -/

/-- The dictionary after `k` insertions when every symbol is 0 (V9, V14): the phrases of 2 to `k + 1`
zeros. -/
def zeros : Nat → Dict
  | 0 => []
  | k + 1 => Dict.write (zeros k) (List.replicate (k + 1) 0 ++ [0]) (18 + k)

theorem zeros_short (k : Nat) {p : Phrase} {c : Nat} (h : Dict.read (zeros k) p = some c) :
    p.length ≤ k + 1 := by
  induction k with
  | zero => cases h
  | succ k ih =>
    rw [zeros, Dict.read_write] at h
    split at h
    · rename_i e
      subst e
      simp
    · have := ih h
      omega

theorem zeros_coded (k : Nat) : Coded (zeros k) (List.replicate (k + 1) 0) := by
  cases k with
  | zero => exact .inl rfl
  | succ k =>
    refine .inr ⟨18 + k, ?_⟩
    rw [List.replicate_succ' (n := k + 1), zeros, Dict.read_write_self]

theorem zeros_inv (k : Nat) : DictInv (zeros k) (18 + k) := by
  induction k with
  | zero => exact DictInv.nil
  | succ k ih =>
    refine ih.write (zeros_coded k) ?_
    cases h : Dict.read (zeros k) (List.replicate (k + 1) 0 ++ [0]) with
    | none => rfl
    | some c =>
      have := zeros_short k h
      simp at this

theorem zeros_wf (k : Nat) : Dict.wf (zeros k) := by
  cases k with
  | zero => exact Dict.wf_nil
  | succ k => exact Dict.wf_write _ _ (by induction k with
    | zero => exact Dict.wf_nil
    | succ k ih => exact Dict.wf_write _ _ ih)

/-- A running encode of zeros with `k` insertions behind it and one 0 buffered, on a `w` by `h` image;
`n` symbols are counted. -/
def zeroRun (k : Nat) (limit : WidthLimit) (n : BitVec 32) (w h : BitVec 16) : State :=
  { State.reset with
    lzState := .accumulating, phrase := [0], dict := zeros k, nextCode := 18 + k
    curWidth := max 5 (bitlen (18 + k)), acc := 16, nbits := bitsThrough k, symCount := n
    width := w, height := h, params := { State.reset.params with maxWidth := limit } }

theorem bitsThrough_le (k : Nat) : 5 ≤ bitsThrough k := by
  induction k with
  | zero => exact Nat.le_refl 5
  | succ k ih => exact ih.trans (Nat.le_add_right _ _)

theorem zeroRun_inv {k : Nat} {limit : WidthLimit} {n : BitVec 32} {w h : BitVec 16}
    (hd : w ≠ 0 ∧ h ≠ 0) (hp : Params.Legal ⟨limit, defaultGct⟩)
    (hl : WithinLimit limit (max 5 (bitlen (18 + k)))) (hn : k < n.toNat) :
    BlockInv (zeroRun k limit n w h) where
  memory := ⟨zeros_wf k, show 16 < 2 ^ bitsThrough k from
    (show 16 < 2 ^ 5 by decide).trans_le (Nat.pow_le_pow_right (by decide) (bitsThrough_le k))⟩
  params := hp
  dimensions := hd
  causes := Nat.zero_le 5
  noFaultCmd _ := rfl
  dict := zeros_inv k
  phrase := .inr (.inl rfl)
  width := rfl
  limit := hl
  empty h := by cases h
  accumulating _ h := by cases h
  bits _ := by rw [show (zeroRun k limit n w h).nextCode = 18 + k from rfl, Nat.add_sub_cancel_left]; rfl
  counted _ _ := show 18 + k < n.toNat + 18 by omega
  output _ := rfl

theorem fresh_inv : BlockInv fresh where
  memory := ⟨Dict.wf_nil, by decide⟩
  params := show 5 ≤ 12 by decide
  dimensions := by decide
  causes := by decide
  noFaultCmd _ := rfl
  dict := DictInv.nil
  phrase := .inl rfl
  width := by decide
  limit := show 5 ≤ 12 by decide
  empty _ := ⟨rfl, rfl, rfl, rfl, rfl⟩
  accumulating h := by cases h
  bits _ := rfl
  counted h := by cases h
  output _ := rfl

/-- One zero supplied on a 1 by 1 image (X15). -/
def one : State := zeroRun 0 (.bounded 12) 1 1 1

theorem one_inv : BlockInv one :=
  zeroRun_inv (by decide) (show 5 ≤ 12 by decide) (show 5 ≤ 12 by decide) (by decide)

/-- Thirteen insertions: the next one makes NEXT_CODE 32 (V9). -/
def full (limit : WidthLimit) : State := zeroRun 13 limit 92 320 250

theorem full_inv : BlockInv (full (.bounded 5)) :=
  zeroRun_inv (by decide) (show 5 ≤ 5 by decide) (show 5 ≤ 5 by decide) (by decide)

/-- A frozen block (X10). -/
def frozen : State := { State.reset with fault := 1 }

/-! ### The hypotheses of every statement are met together, each clause at a boundary -/

theorem witness_CfgdimWritesDimensionsOrFaults :
    State.reset.fault = 0 ∧ ((1 : BitVec 16) ≠ 0 ∧ (65535 : BitVec 16) ≠ 0) ∧
    ((0 : BitVec 16) = 0 ∨ (65535 : BitVec 16) = 0) ∧ ((1 : BitVec 16) = 0 ∨ (0 : BitVec 16) = 0) := by
  decide

theorem witness_CfgdlyWritesDelay : State.reset.fault = 0 := by decide

theorem witness_StartBeginsFreshEncode : one.fault = 0 ∧ one.lzState = .accumulating := by decide

theorem witness_FirstSymbolIsBuffered :
    Supplies (.sym 15) 15 ∧ Supplies (.pix 0 0 0 0) 15 ∧ Supplies (.pix 255 255 255 1) 7 ∧ Ready fresh ∧
    fresh.phrase = [] :=
  ⟨.inl rfl, .inr ⟨0, 0, 0, 0, rfl, by decide⟩, .inr ⟨255, 255, 255, 1, rfl, by decide⟩, by decide, rfl⟩

theorem witness_KnownPhraseIsExtended :
    Supplies (.sym 0) 0 ∧ Ready (full (.bounded 5)) ∧ (full (.bounded 5)).phrase ≠ [] ∧
    Dict.read (full (.bounded 5)).dict ((full (.bounded 5)).phrase ++ [0]) = some 18 :=
  ⟨.inl rfl, by decide, by decide, by decide⟩

/-- The overflow at the limit; NEXT_CODE one below the growth at the limit, and at the growth below the
limit and with no limit. -/
theorem witness_MismatchInsertsOrOverflows :
    Supplies (.sym 1) 1 ∧
    (∀ s ∈ [full (.bounded 5)],
      Ready s ∧ s.phrase ≠ [] ∧ Dict.read s.dict (s.phrase ++ [1]) = none ∧
      2 ^ s.curWidth ≤ s.nextCode + 1 ∧ s.params.maxWidth = .bounded s.curWidth) ∧
    (∀ s ∈ [zeroRun 12 (.bounded 5) 92 1 1, full (.bounded 6), full .unbounded],
      Ready s ∧ s.phrase ≠ [] ∧ Dict.read s.dict (s.phrase ++ [1]) = none ∧
      ¬(2 ^ s.curWidth ≤ s.nextCode + 1 ∧ s.params.maxWidth = .bounded s.curWidth) ∧
      codeOf s.dict s.phrase = some 0 ∧ 0 < 2 ^ s.curWidth ∧ 5 ≤ s.curWidth) :=
  ⟨.inl rfl, by decide, by decide⟩

theorem witness_FlushDeliversPackedStream :
    (Ready fresh ∧ 5 ≤ fresh.curWidth ∧ fresh.phrase = []) ∧
    (Ready one ∧ 5 ≤ one.curWidth ∧ one.phrase ≠ [] ∧ codeOf one.dict one.phrase = some 0 ∧
      0 < 2 ^ one.curWidth) := by decide

theorem witness_EmptyInputGivesClearAndEoi :
    State.reset.fault = 0 ∧ State.reset.width ≠ 0 ∧ State.reset.height ≠ 0 := by decide

theorem witness_SaveWrapsTheStreamInTheFile :
    BlockInv one ∧ Ready one ∧ one.symCount.toNat = one.width.toNat * one.height.toNat :=
  ⟨one_inv, by decide, by decide⟩

theorem witness_SaveWithWrongCountFaults :
    (Ready fresh ∧ fresh.symCount.toNat ≠ fresh.width.toNat * fresh.height.toNat) ∧
    Instr.flush ≠ .save ∧ fresh.fault = 0 ∧ ∃ t, exec .flush fresh = .next t :=
  ⟨by decide, by decide, rfl, _, rfl⟩

theorem witness_CounterNeverFakesAPixelCount :
    (BlockInv fresh ∧ fresh.fault = 0 ∧ fresh.lzState = .empty) ∧
    ∃ s : State, Ready s ∧ s.symCount.toNat = 2 ^ 32 - 1 :=
  ⟨⟨fresh_inv, rfl, rfl⟩, { one with symCount := BitVec.allOnes 32 }, by decide, by decide⟩

theorem witness_SequenceErrorOutsideAnEncode :
    NeedsEncode (.sym 0) ∧ NeedsEncode (.pix 0 0 0 0) ∧ NeedsEncode .flush ∧ NeedsEncode .save ∧
    State.reset.fault = 0 ∧ State.reset.lzState = .idle ∧
    { State.reset with lzState := .flushed }.lzState = .flushed ∧
    ¬NeedsEncode .start ∧ ∃ t, exec .start State.reset = .next t :=
  ⟨.inl ⟨0, .inl rfl⟩, .inl ⟨15, .inr ⟨0, 0, 0, 0, rfl, rfl⟩⟩, .inr (.inl rfl), .inr (.inr rfl), rfl, rfl, rfl,
    by simp [NeedsEncode, Supplies], _, rfl⟩

/-- The four causes a command records, and none, each answered by some command. -/
theorem witness_EachCauseHasItsCondition :
    after (exec .flush State.reset) State.fault = some 2 ∧
    after (exec (.cfgdim 0 1) State.reset) State.fault = some 3 ∧
    after (exec .save fresh) State.fault = some 4 ∧
    after (exec (.sym 1) (full (.bounded 5))) State.fault = some 5 ∧
    after (exec (.sym 1) (full (.bounded 6))) State.fault = some 0 := by decide

/-- A command that raises, and the reset event of a frozen block. -/
theorem witness_FaultsAreSynchronousAndPrecise :
    after (step (placeCommand 0x0800000000 fresh)) State.fault = some 1 ∧ fresh.fault = 0 ∧
    after (step { frozen with input := [.reset] }) State.fault = some 0 ∧ frozen.fault = 1 := by decide

theorem witness_FrozenBlockDiscardsUntilReset :
    frozen.fault ≠ 0 ∧ (placeCommand 0x0300000000 frozen).input = .command 0x0300000000 :: [] ∧
    readPort .fault { frozen with input := [.read .fault] } = some (.fault 1) ∧
    { frozen with input := [.reset] }.input = .reset :: [] ∧
    (∃ t, step (placeCommand 0x0300000000 frozen) = .next t) ∧
    ∀ more, (placeCommand 0x0300000000 frozen).input ≠ .reset :: more :=
  ⟨by decide, rfl, rfl, rfl, ⟨_, rfl⟩, fun more h => by cases h⟩

/-- Each way a word is illegal, at a boundary (E15 to E22). -/
theorem witness_IllegalWordFaultsInEveryState :
    IllegalWord 0x0000000000 ∧ IllegalWord 0x0800000000 ∧ IllegalWord 0xFF00000000 ∧
    IllegalWord 0x0300000001 ∧ IllegalWord 0x0500000010 ∧ IllegalWord 0x0200010000 ∧
    IllegalWord 0x0680000000 ∧ IllegalWord 0x0700000100 ∧ fresh.fault = 0 ∧
    (placeCommand 0x0500000010 fresh).input = .command 0x0500000010 :: [] := by
  simp [IllegalWord]
  decide

theorem witness_DecodeOfEncodeIsTheCommand :
    (Instr.pix 255 0 128 7).wellFormed = true ∧ (Instr.cfgdim 0 65535).wellFormed = true := by decide

theorem witness_EncodeOfDecodeIsTheWord : decode 0x050000000F = some (.sym 15) := by decide

theorem witness_AddExpandsToThreeCommands :
    (65535 < 2 ^ 16 ∧ 1 < 2 ^ 16 ∧ 0 < 2 ^ 16) ∧ (2 ^ 16 ≤ 65536 ∨ 2 ^ 16 ≤ 1 ∨ 2 ^ 16 ≤ 0) ∧
    (State.reset.fault = 0 ∧ ((0 : Nat) = 0 ∨ (65535 : Nat) = 0) ∧ 0 < 2 ^ 16 ∧ 65535 < 2 ^ 16) := by
  decide

theorem witness_StepExecutesTheDecodedCommand :
    (placeCommand 0x050000000F fresh).input = .command 0x050000000F :: [] ∧
    decode 0x050000000F = some (.sym 15) := by decide

/-- A command word, a read, and nothing presented. -/
theorem witness_CommandIndexCountsCommands :
    (∃ t, step (placeCommand 0 frozen) = .next t) ∧
    (∃ t, step { frozen with input := [.read .fault] } = .next t) ∧ ∃ t, step frozen = .next t :=
  ⟨⟨_, rfl⟩, ⟨_, rfl⟩, ⟨_, rfl⟩⟩

theorem witness_ResetEventRestoresTheResetState :
    { frozen with input := [.reset] }.input = .reset :: [] := by decide

theorem witness_StepKeepsInvariant :
    (BlockInv one ∧ ∃ t, step one = .next t) ∧
    ∃ t, step { one with input := [.reset] } = .next t :=
  ⟨⟨one_inv, _, rfl⟩, _, rfl⟩

theorem witness_StepKeepsMemoryCanonical :
    Memory.wf (placeCommand 0x0500000001 one) ∧ ∃ t, step (placeCommand 0x0500000001 one) = .next t :=
  ⟨one_inv.memory, _, rfl⟩

theorem witness_EveryWordCompletes : BlockInv (full (.bounded 5)) ∧ (full (.bounded 5)).nextCode = 31 :=
  ⟨full_inv, rfl⟩

/-- Two words, an illegal one among them; and a run that is over with a read left. -/
theorem witness_CommandListsRunToTheirEnd :
    BlockInv { one with input := [.command 0x0500000001, .command 0x0000000000] } ∧
    ({ one with input := [.command 0x0500000001, .command 0x0000000000] } : State).input =
      [0x0500000001, 0x0000000000].map .command ∧
    readPort .fault { one with input := [.read .fault] } = some (.fault 0) ∧
    RunOver { one with input := [.read .fault] } ∧
    ¬RunOver { one with input := [.read .fault, .command 0x0600000000] } :=
  ⟨⟨one_inv.memory, one_inv.params, one_inv.dimensions, one_inv.causes, one_inv.noFaultCmd,
      one_inv.dict, one_inv.phrase, one_inv.width, one_inv.limit, one_inv.empty, one_inv.accumulating,
      one_inv.bits, one_inv.counted, one_inv.output⟩,
    rfl, rfl, by decide, by decide⟩

/-- A transition of each clause. -/
theorem witness_LzStateTransitions :
    BlockInv fresh ∧ BlockInv one ∧
    after (exec .start one) (fun s => (s.fault, s.lzState)) = some (0, .empty) ∧
    after (exec (.sym 0) fresh) (fun s => (s.fault, s.lzState)) = some (0, .accumulating) ∧
    after (exec .flush fresh) (fun s => (s.fault, s.lzState)) = some (0, .flushed) ∧
    after (exec (.cfgdly 0) one) (fun s => (s.fault, s.lzState)) = some (0, .accumulating) ∧
    after (exec .save fresh) (fun s => (s.fault, s.lzState)) = some (4, .empty) :=
  ⟨fresh_inv, one_inv, by decide, by decide, by decide, by decide, by decide⟩

theorem witness_RegistersHaveOneWriter :
    (∃ t, exec (.sym 0) one = .next t) ∧ (∀ w h, Instr.sym 0 ≠ .cfgdim w h) ∧
    (∀ d, Instr.sym 0 ≠ .cfgdly d) ∧ Instr.sym 0 ≠ .start ∧ Instr.sym 0 ≠ .flush ∧ Instr.sym 0 ≠ .save :=
  ⟨⟨_, rfl⟩, by simp, by simp, by decide, by decide, by decide⟩

theorem witness_ParametersNeverChange : ∃ t, step { one with input := [.reset] } = .next t := ⟨_, rfl⟩

/-- An insertion happens, and the entry before it is there. -/
theorem witness_DictionaryOnlyGrows :
    Instr.sym 1 ≠ .start ∧ Dict.read (full (.bounded 6)).dict [0, 0] = some 18 ∧
    Dict.read (full (.bounded 6)).dict [0, 1] = none ∧
    after (exec (.sym 1) (full (.bounded 6))) (fun s => Dict.read s.dict [0, 1]) = some (some 31) := by
  decide

/-- No insertion, an insertion below the power of two, and one at it. -/
theorem witness_WidthGrowsAtPowersOfTwo :
    BlockInv fresh ∧ BlockInv one ∧ BlockInv (full (.bounded 6)) ∧ Instr.sym 1 ≠ .start ∧
    after (exec (.sym 1) fresh) (fun s => (s.nextCode, s.curWidth)) = some (18, 5) ∧
    after (exec (.sym 1) one) (fun s => (s.nextCode, s.curWidth)) = some (19, 5) ∧
    after (exec (.sym 1) (full (.bounded 6))) (fun s => (s.nextCode, s.curWidth)) = some (32, 6) :=
  ⟨fresh_inv, one_inv,
    zeroRun_inv (by decide) (show 5 ≤ 6 by decide) (show 5 ≤ 6 by decide) (by decide),
    by decide, by decide, by decide, by decide⟩

theorem witness_PushedBitsNeverChange :
    Memory.wf one ∧ Instr.flush ≠ .start ∧ ∃ t, exec .flush one = .next t :=
  ⟨one_inv.memory, by decide, _, rfl⟩

/-- One block had an encode running, the other had none. -/
theorem witness_StartForgetsEarlierEncodes :
    let s := { one with width := 320, height := 250 }
    s.fault = 0 ∧ State.reset.fault = 0 ∧ s.width = State.reset.width ∧ s.height = State.reset.height ∧
    s.delayMs = State.reset.delayMs ∧ s.params = State.reset.params ∧
    ∃ t, execAll (.start :: [.sym 3, .flush]) s = .next t :=
  ⟨by decide, by decide, by decide, by decide, by decide, by decide, _, rfl⟩

theorem witness_HostReadsReturnAndChangeNothing :
    (readPort .fault frozen = some (.fault 1) ∧
      { frozen with input := [.read .fault] }.input = .read .fault :: []) ∧
    { State.reset with lzState := .flushed, out := [0x30, 0x02] }.out[1]? = some 0x02 ∧
    { State.reset with lzState := .flushed, out := [0x30, 0x02] }.out.length ≤ 2 ∧
    (BlockInv one ∧ one.lzState ≠ .flushed) :=
  ⟨by decide, by decide, by decide, one_inv, by decide⟩

/-- The largest state the limit admits: 4077 insertions (V12). -/
theorem witness_TwelveBitLimitBoundsTheStores :
    let s := zeroRun 4077 (.bounded 12) 8313004 320 250
    BlockInv s ∧ s.params.maxWidth = .bounded 12 ∧ Ready s ∧ s.nextCode = 4095 :=
  ⟨zeroRun_inv (by decide) (show 5 ≤ 12 by decide) (show max 5 (bitlen 4095) ≤ 12 by decide) (by decide),
    rfl, ⟨rfl, rfl⟩, rfl⟩

/-- B8, B12: the greatest word that fits, and the least that does not; width 0, with value 0 and with
value 1; a running stream, and one that has been emptied under LZ_STATE Flushed. -/
theorem witness_PushWordPlacesEveryBit :
    Memory.wf one ∧ one.lzState ≠ .flushed ∧ 1 ≤ 5 ∧ 31 < 2 ^ 5 ∧ 2 ^ 5 ≤ 32 ∧
    ((0 : Nat) = 0 ∨ 2 ^ 0 ≤ 0) ∧ ((0 : Nat) = 0 ∨ 2 ^ 0 ≤ 1) ∧
    Memory.wf { State.reset with lzState := .flushed } ∧
    ({ State.reset with lzState := .flushed } : State).nbits = 0 :=
  ⟨one_inv.memory, by decide, by decide, by decide, by decide, by decide, by decide, reset_memory, rfl⟩

theorem witness_PushAfterFinishIsRefused :
    Ready fresh ∧ after (exec .flush fresh) State.fault = some 0 ∧
    Ready one ∧ after (exec .save one) State.fault = some 0 := by decide

/-- Widths 5 and 6 where the current width is 5, 4 below the domain, and 5 within an encode of width
6. -/
theorem witness_SetWidthWritesTheWidthOrRefuses :
    (5 ≤ 5 ∧ one.curWidth ≤ 5) ∧ (5 ≤ 6 ∧ one.curWidth ≤ 6) ∧ 4 < 5 ∧
    (5 ≤ 5 ∧ ({ one with curWidth := 6 } : State).nbits ≠ 0 ∧
      5 < ({ one with curWidth := 6 } : State).curWidth) ∧
    ({ State.reset with curWidth := 6 } : State).nbits = 0 := by decide

theorem witness_FinishPlacesEveryBit : Memory.wf one ∧ (finish one).2[4 / 8]? = some 0x10 :=
  ⟨one_inv.memory, by decide⟩

theorem witness_PrefixCodeFormIsEquivalent :
    BlockInv (full (.bounded 5)) ∧ codeOf (full (.bounded 5)).dict (full (.bounded 5)).phrase = some 0 :=
  ⟨full_inv, rfl⟩

theorem witness_StreamingPackerIsEquivalent :
    ∀ p ∈ [(16, 5), (31, 5), (4095, 12)], p.1 < 2 ^ p.2 := by decide

/-- V8's 14 data codes are the most that fit a limit of 5 bits. -/
theorem witness_CommandsComputeEncode :
    (full (.bounded 5)).fault = 0 ∧ (full (.bounded 5)).params.Legal ∧
    FitsLimit (full (.bounded 5)).params.maxWidth
      [0, 1, 2, 3, 4, 5, 6, 7, 8, 9, 10, 11, 12, 13] :=
  ⟨rfl, show 5 ≤ 5 by decide, show 17 + _ < 2 ^ 5 by decide⟩

theorem witness_PixelsBecomeTheFile :
    one.fault = 0 ∧ one.params.Legal ∧
    [((0 : Byte), (0 : Byte), (0 : Byte), (0 : Byte))].length = one.width.toNat * one.height.toNat ∧
    FitsLimit one.params.maxWidth [index 0 0 0 0] :=
  ⟨rfl, show 5 ≤ 12 by decide, by decide, show 17 + _ < 2 ^ 12 by decide⟩

/-- V7's 15 data codes do not fit a limit of 5 bits. -/
theorem witness_OverflowingInputFaults :
    (full (.bounded 5)).fault = 0 ∧ (full (.bounded 5)).params.Legal ∧
    ¬FitsLimit (full (.bounded 5)).params.maxWidth
      [0, 1, 2, 3, 4, 5, 6, 7, 8, 9, 10, 11, 12, 13, 14] :=
  ⟨rfl, show 5 ≤ 5 by decide, show ¬17 + _ < 2 ^ 5 by decide⟩

end Sys2Proof.Tests
end

namespace Sys2Proof.Machine

/-! ### What LZW_END leaves, as one update of the state (R125) -/

/-- Codes pushed at the width as it stands append their stream of R68, and change nothing else. -/
theorem foldl_pushBits (codes : List Nat) (s : State) :
    codes.foldl (fun s c => pushBits c s.curWidth s) s = { s with
      acc := s.acc + streamNumber s.nbits (codes.map fun c => (c, s.curWidth))
      nbits := s.nbits + streamBits (codes.map fun c => (c, s.curWidth)) } := by
  induction codes generalizing s with
  | nil => rfl
  | cons c rest ih =>
    rw [List.foldl_cons, ih]
    simp [streamNumber, streamBits, Nat.add_assoc]

theorem afterEnd_eq (codes : List Nat) (s : State) :
    afterEnd codes s = { s with
      acc := s.acc + streamNumber s.nbits (codes.map fun c => (c, s.curWidth))
      nbits := s.nbits + streamBits (codes.map fun c => (c, s.curWidth))
      lzState := .flushed } := by
  rw [afterEnd, foldl_pushBits]

@[simp] theorem afterEnd_width (codes : List Nat) (s : State) :
    (afterEnd codes s).width = s.width := by rw [afterEnd_eq]
@[simp] theorem afterEnd_height (codes : List Nat) (s : State) :
    (afterEnd codes s).height = s.height := by rw [afterEnd_eq]
@[simp] theorem afterEnd_delayMs (codes : List Nat) (s : State) :
    (afterEnd codes s).delayMs = s.delayMs := by rw [afterEnd_eq]
@[simp] theorem afterEnd_lzState (codes : List Nat) (s : State) :
    (afterEnd codes s).lzState = .flushed := rfl
@[simp] theorem afterEnd_fault (codes : List Nat) (s : State) :
    (afterEnd codes s).fault = s.fault := by rw [afterEnd_eq]
@[simp] theorem afterEnd_curWidth (codes : List Nat) (s : State) :
    (afterEnd codes s).curWidth = s.curWidth := by rw [afterEnd_eq]
@[simp] theorem afterEnd_acc (codes : List Nat) (s : State) :
    (afterEnd codes s).acc =
      s.acc + streamNumber s.nbits (codes.map fun c => (c, s.curWidth)) := by rw [afterEnd_eq]
@[simp] theorem afterEnd_nbits (codes : List Nat) (s : State) :
    (afterEnd codes s).nbits =
      s.nbits + streamBits (codes.map fun c => (c, s.curWidth)) := by rw [afterEnd_eq]
@[simp] theorem afterEnd_params (codes : List Nat) (s : State) :
    (afterEnd codes s).params = s.params := by rw [afterEnd_eq]

/-! ### The converse of `exec_cases`: what `Raises` and `Performed` describe does happen -/

/-- The state START leaves (R120, R173). -/
abbrev started (s : State) : State :=
  clearResult { freshEntities s with curWidth := 5, acc := 16, nbits := 5, lzState := .empty }

theorem exec_start_unfaulted {s : State} (hf : s.fault = 0) : exec .start s = .next (started s) := by
  rw [exec_start, execute_performs hf rfl rfl, lzwInit_next, andThen_next]

/-- PIX, SYM, FLUSH and SAVE are not legal unless an encode runs (R170 step 3, R203). -/
theorem exec_outOfSequence {i : Instr} {s : State} (hi : NeedsEncode i) (hf : s.fault = 0)
    (hrun : s.lzState.running = false) :
    exec i s = .next (raise .sequenceError (encode i) s) := by
  rcases hi with ⟨c, hc⟩ | rfl | rfl
  · rw [exec_supplies hc, execute_outOfSequence hf ((legalIn_supplies hc _).trans hrun)]
  · rw [exec_flush, execute_outOfSequence (i := .flush) hf hrun]
  · rw [exec_save, execute_outOfSequence (i := .save) hf hrun]

theorem exec_of_raises {i : Instr} {s : State} {cause : FaultCause} (hf : s.fault = 0)
    (h : Raises s i cause) : exec i s = .next (raise cause (encode i) s) := by
  cases h with
  | sequence needs notRunning => exact exec_outOfSequence needs hf notRunning
  | dimensions zero => rw [exec_cfgdim, execute_raises hf rfl (dimensionsCheck_raises zero)]
  | count running differs =>
    rw [exec_save, execute_raises (i := .save) hf running
      (pixelCountCheck_eq_some.mpr ⟨rfl, differs⟩)]
  | overflow supplies running buffered absent full limit =>
    rw [exec_supplies supplies, execute_raises hf ((legalIn_supplies supplies _).trans running)
      (overflowCheck_eq_some.mpr ⟨rfl, buffered, absent, full, limit⟩)]

/-- A symbol that takes the mismatch branch with room for its code (R123, R124). -/
theorem supplySymbol_mismatch {c : ColorIndex} {code : Nat} {s : State} (hs : s.lzState ≠ .flushed)
    (hp : s.phrase ≠ []) (absent : Dict.read s.dict (s.phrase ++ [c]) = none)
    (isCode : codeOf s.dict s.phrase = some code) (hw : 5 ≤ s.curWidth)
    (fits : code < 2 ^ s.curWidth) : supplySymbol c s = .next (afterMismatch c code s) := by
  rw [supplySymbol_eq_next, lzwStep_mismatch hp absent]
  by_cases grows : 2 ^ s.curWidth ≤ s.nextCode + 1
  · refine ⟨_, (lzwMismatch_eq_next hs).mpr
      ⟨code, isCode, by omega, fits, .inr ⟨grows, by omega, rfl⟩⟩, ?_⟩
    rw [afterMismatch, if_pos grows]
    rfl
  · refine ⟨_, (lzwMismatch_eq_next hs).mpr
      ⟨code, isCode, by omega, fits, .inl ⟨by omega, rfl⟩⟩, ?_⟩
    rw [afterMismatch, if_neg grows]
    rfl

/-- The width is asked for because a mismatch may set a wider one, which R106 takes from 5 on. -/
theorem exec_of_performed {i : Instr} {s t : State} (hf : s.fault = 0) (hw : 5 ≤ s.curWidth)
    (h : Performed s i t) : exec i s = .next t := by
  cases h with
  | cfgdim nonzero => rw [exec_cfgdim, execute_performs hf rfl (dimensionsCheck_passes nonzero)]
  | cfgdly => rw [exec_cfgdly, execute_performs hf rfl rfl]
  | start => exact exec_start_unfaulted hf
  | first supplies running empty =>
    rw [exec_supplies_performs supplies ⟨hf, running⟩ (overflowCheck_eq_none (.inl empty)),
      supplySymbol, lzwStep_first empty, andThen_next]
  | known supplies running buffered present =>
    rw [exec_supplies_performs supplies ⟨hf, running⟩
        (overflowCheck_eq_none (.inr (.inl (by simp [present])))),
      supplySymbol, lzwStep_match buffered present, andThen_next]
  | mismatch supplies running buffered absent roomy isCode positive fits =>
    rw [exec_supplies_performs supplies ⟨hf, running⟩
        (overflowCheck_eq_none (.inr (.inr roomy))),
      supplySymbol_mismatch (ne_flushed_of_running running) buffered absent isCode hw fits]
  | flush running ended positive fits =>
    rw [exec_flush, execute_performs (i := .flush) hf running rfl,
      lzwEnd_of_codes running ended positive fits, andThen_next]
  | save running count ended positive fits =>
    rw [exec_save, execute_performs (i := .save) hf running (pixelCountCheck_passes count),
      lzwEnd_of_codes running ended positive fits, andThen_next]

/-! ### Frames read off from `exec_cases` -/

theorem Performed.params {i : Instr} {s t : State} (h : Performed s i t) : t.params = s.params := by
  cases h <;> simp [afterMismatch]

theorem Performed.fault {i : Instr} {s t : State} (h : Performed s i t) : t.fault = s.fault := by
  cases h <;> simp [afterMismatch]

/-- CUR_WIDTH never falls below INIT_WIDTH (R25). -/
theorem Performed.five_le_curWidth {i : Instr} {s t : State} (h : Performed s i t)
    (hw : 5 ≤ s.curWidth) : 5 ≤ t.curWidth := by
  cases h with
  | start => exact Nat.le_refl 5
  | mismatch =>
    simp only [afterMismatch]
    split <;> omega
  | _ => simpa using hw

theorem exec_params {i : Instr} {s t : State} (h : exec i s = .next t) : t.params = s.params := by
  rcases exec_cases h with ⟨-, rfl⟩ | ⟨-, cause, -, rfl⟩ | ⟨-, hp⟩
  · rfl
  · rfl
  · exact hp.params

theorem exec_five_le_curWidth {i : Instr} {s t : State} (h : exec i s = .next t)
    (hw : 5 ≤ s.curWidth) : 5 ≤ t.curWidth := by
  rcases exec_cases h with ⟨-, rfl⟩ | ⟨-, cause, -, rfl⟩ | ⟨-, hp⟩
  · exact hw
  · exact hw
  · exact hp.five_le_curWidth hw

theorem presentWord_params {w : CmdWord} {s t : State} (h : presentWord w s = .next t) :
    t.params = s.params := by
  rcases presentWord_cases h with ⟨i, -, h⟩ | ⟨-, -, rfl⟩ | ⟨-, -, rfl⟩
  · exact exec_params h
  · rfl
  · rfl

/-- Settles O36, case by case over what a step can do: only a command word could write the parameters,
and no command does. -/
theorem parametersNeverChange : Obligations.ParametersNeverChange := by
  intro s t h
  rcases step_cases h with ⟨-, rfl⟩ | ⟨w, rest, -, h⟩ | ⟨rest, -, rfl⟩ | ⟨p, v, rest, -, -, rfl⟩
  · rfl
  · exact (presentWord_params h).trans (takeCommand_params s rest)
  · rfl
  · rfl

/-! ### Command lists -/

theorem execAll_cons_next {i : Instr} {commands : List Instr} {s u : State}
    (h : exec i s = .next u) : execAll (i :: commands) s = execAll commands u := by
  rw [execAll, h, andThen_next]

theorem execAll_append {first : List Instr} {s u : State} (second : List Instr)
    (h : execAll first s = .next u) : execAll (first ++ second) s = execAll second u := by
  induction first generalizing s with
  | nil => cases h; rfl
  | cons i rest ih =>
    obtain ⟨v, hv, hrest⟩ := andThen_eq_next.mp h
    rw [List.cons_append, execAll_cons_next hv, ih hrest]

/-! ### What the commands do not depend on (R5, R29) -/

/-- The block of `s` in the place of the block of `u`: CMD_INDEX and the host's side are those of `u`,
and so is FAULT_CMD as long as no fault has written it. -/
def graft (u s : State) : State :=
  { s with
    faultCmd := if s.fault = 0 then u.faultCmd else s.faultCmd
    cmdIndex := u.cmdIndex, input := u.input, reply := u.reply }

theorem graft_raise (u s : State) (cause : FaultCause) (w : CmdWord) :
    graft u (raise cause w s) = raise cause w (graft u s) := by
  cases cause <;> rfl

theorem Raises.grafted {i : Instr} {s : State} {cause : FaultCause} (u : State)
    (h : Raises s i cause) : Raises (graft u s) i cause := by
  cases h with
  | sequence needs notRunning => exact .sequence needs notRunning
  | dimensions zero => exact .dimensions zero
  | count running differs => exact .count running differs
  | overflow supplies running buffered absent full limit =>
    exact .overflow supplies running buffered absent full limit

theorem EndCodes.grafted {codes : List Nat} {s : State} (u : State) (h : EndCodes s codes) :
    EndCodes (graft u s) codes := by
  cases h with
  | eoi empty => exact .eoi empty
  | phrase buffered isCode fits => exact .phrase buffered isCode fits

theorem graft_afterEnd (u s : State) (codes : List Nat) :
    graft u (afterEnd codes s) = afterEnd codes (graft u s) := by
  rw [afterEnd_eq, afterEnd_eq]
  rfl

/-- Every update a command performs reads and writes the grafted block only. -/
theorem Performed.grafted {i : Instr} {s t : State} (u : State) (h : Performed s i t) :
    Performed (graft u s) i (graft u t) := by
  cases h with
  | cfgdim nonzero => exact .cfgdim nonzero
  | cfgdly => exact .cfgdly
  | start => exact .start
  | first supplies running empty => exact .first supplies running empty
  | known supplies running buffered present => exact .known supplies running buffered present
  | mismatch supplies running buffered absent roomy isCode positive fits =>
    exact .mismatch supplies running buffered absent roomy isCode positive fits
  | @flush codes running ended positive fits =>
    have h := Performed.flush (s := graft u s) running (ended.grafted u) positive fits
    rw [← graft_afterEnd] at h
    exact h
  | @save codes running count ended positive fits =>
    have h := Performed.save (s := graft u s) running count (ended.grafted u) positive fits
    rw [← graft_afterEnd] at h
    exact h

/-- A command commutes with the graft. -/
theorem exec_graft {i : Instr} {s t : State} (u : State) (hw : 5 ≤ s.curWidth)
    (h : exec i s = .next t) : exec i (graft u s) = .next (graft u t) := by
  rcases exec_cases h with ⟨hf, rfl⟩ | ⟨hf, cause, hr, rfl⟩ | ⟨hf, hp⟩
  · exact exec_frozen i hf
  · rw [graft_raise]
    exact exec_of_raises hf (hr.grafted u)
  · exact exec_of_performed hf hw (hp.grafted u)

theorem execAll_graft {commands : List Instr} {s t : State} (u : State) (hw : 5 ≤ s.curWidth)
    (h : execAll commands s = .next t) : execAll commands (graft u s) = .next (graft u t) := by
  induction commands generalizing s with
  | nil => cases h; rfl
  | cons i rest ih =>
    obtain ⟨v, hv, hrest⟩ := andThen_eq_next.mp h
    rw [execAll_cons_next (exec_graft u hw hv)]
    exact ih (exec_five_le_curWidth hv hw) hrest

/-- START keeps of the block the configuration only. -/
theorem started_eq_graft {s u : State} (hs : s.fault = 0) (hu : u.fault = 0)
    (hwidth : s.width = u.width) (hheight : s.height = u.height) (hdelay : s.delayMs = u.delayMs)
    (hparams : s.params = u.params) : started u = graft u (started s) := by
  simp [graft, clearResult, freshEntities, hs, hu, hwidth, hheight, hdelay, hparams]

/-- Settles O40: START makes the two blocks one graft of the other, and every command commutes with the
graft. -/
theorem startForgetsEarlierEncodes : Obligations.StartForgetsEarlierEncodes := by
  intro commands s u t hs hu hwidth hheight hdelay hparams h
  rw [execAll_cons_next (exec_start_unfaulted hs)] at h
  refine ⟨graft u t, ?_, rfl, rfl, rfl, rfl, fun hf => if_neg hf⟩
  rw [execAll_cons_next (exec_start_unfaulted hu),
    started_eq_graft hs hu hwidth hheight hdelay hparams]
  exact execAll_graft u (Nat.le_refl 5) h

/-! ### What the rest of an encode will make of the symbols still to come

The machine and the stream functions of R67, R68 and R127 are compared through `prospect`: everything the
end of the encode depends on, computed from the state and the symbols to come. Every symbol supplied
leaves it as it is, START makes it the prospect of R127, and FLUSH or SAVE delivers it. -/

/-- The data codes still to be pushed when the symbols follow (R122, R123, R125). -/
def codesLeft (s : State) : List ColorIndex → List Nat
  | [] => if s.phrase = [] then [] else dataCodes s.dict s.nextCode s.phrase []
  | c :: rest =>
    if s.phrase = [] then dataCodes s.dict s.nextCode [c] rest
    else dataCodes s.dict s.nextCode s.phrase (c :: rest)

/-- All words still to be pushed, EOI the last of them, at the widths of R67: data code `k` is the one
pushed when NEXT_CODE is `17 + k`. -/
def wordsLeft (s : State) (symbols : List ColorIndex) : List (Nat × Nat) :=
  withWidths (s.nextCode - 17) (codesLeft s symbols) ++
    [(17, dataWidth (s.nextCode - 18 + (codesLeft s symbols).length))]

/-- SYMCOUNT, which saturates, when `more` further symbols have been counted (R18). -/
def countThrough (n : BitVec 32) (more : Nat) : Nat := min (n.toNat + more) (2 ^ 32 - 1)

/-- Everything the end of an encode depends on. -/
structure Prospect where
  /-- The whole stream as one number (R68). -/
  number : Nat
  /-- The number of bits of the stream (R68). -/
  bits : Nat
  /-- NEXT_CODE and the number of data codes to come: one more than the last NEXT_CODE when there is a
  data code to come (R132). -/
  endCode : Nat
  /-- SYMCOUNT when all symbols have been counted (R18). -/
  count : Nat
  width : BitVec 16
  height : BitVec 16
  delayMs : BitVec 16
  params : Params

def prospect (s : State) (symbols : List ColorIndex) : Prospect where
  number := s.acc + streamNumber s.nbits (wordsLeft s symbols)
  bits := s.nbits + streamBits (wordsLeft s symbols)
  endCode := s.nextCode + (codesLeft s symbols).length
  count := countThrough s.symCount symbols.length
  width := s.width
  height := s.height
  delayMs := s.delayMs
  params := s.params

/-- No DictionaryOverflow lies ahead (R128). -/
def Prospect.Fits (p : Prospect) : Prop :=
  match p.params.maxWidth with
  | .bounded m => p.endCode ≤ 2 ^ m
  | .unbounded => True

theorem Prospect.Fits.le {p : Prospect} {m : Nat} (h : p.Fits) (hm : p.params.maxWidth = .bounded m) :
    p.endCode ≤ 2 ^ m := by
  simpa only [Fits, hm] using h

/-! #### The codes and words left, symbol by symbol -/

theorem dataCodes_length_pos (d : Dict) (next : Nat) (phrase : Phrase) (symbols : List ColorIndex) :
    1 ≤ (dataCodes d next phrase symbols).length := by
  induction symbols generalizing d next phrase with
  | nil => exact Nat.le_refl 1
  | cons c rest ih =>
    rw [dataCodes]
    split
    · exact ih ..
    · simp

theorem codesLeft_buffered {s : State} (hp : s.phrase ≠ []) (symbols : List ColorIndex) :
    codesLeft s symbols = dataCodes s.dict s.nextCode s.phrase symbols := by
  cases symbols <;> simp [codesLeft, hp]

theorem codesLeft_first {s : State} {c : ColorIndex} {rest : List ColorIndex} (hp : s.phrase = []) :
    codesLeft (countSymbol (lzwFirst c s)) rest = codesLeft s (c :: rest) := by
  rw [codesLeft_buffered (by simp)]
  simp [codesLeft, hp]

theorem codesLeft_known {s : State} {c : ColorIndex} {k : Nat} {rest : List ColorIndex}
    (hp : s.phrase ≠ []) (present : Dict.read s.dict (s.phrase ++ [c]) = some k) :
    codesLeft (countSymbol (lzwMatch c s)) rest = codesLeft s (c :: rest) := by
  rw [codesLeft_buffered (by simp [extend]), codesLeft_buffered hp, dataCodes,
    if_pos (by simp [lookup, extend, present])]
  rfl

theorem codesLeft_mismatch {s : State} {c : ColorIndex} {code : Nat} {rest : List ColorIndex}
    (hp : s.phrase ≠ []) (absent : Dict.read s.dict (s.phrase ++ [c]) = none)
    (isCode : codeOf s.dict s.phrase = some code) :
    codesLeft s (c :: rest) = code :: codesLeft (afterMismatch c code s) rest := by
  rw [codesLeft_buffered hp, codesLeft_buffered (by simp [afterMismatch]), dataCodes,
    if_neg (by simp [lookup, extend, absent]), isCode]
  rfl

/-- The width of the data code that is pushed when NEXT_CODE is `n` (R67). -/
theorem dataWidth_sub {n : Nat} (hn : 18 ≤ n) : dataWidth (n - 17) = max 5 (bitlen n) := by
  rw [dataWidth, Nat.add_sub_cancel' (by omega)]

theorem streamBits_cons (word : Nat × Nat) (words : List (Nat × Nat)) :
    streamBits (word :: words) = word.2 + streamBits words := rfl

/-! #### An unfaulted running encode -/

/-- The items of R22 about an encode that runs unfaulted. Unlike `BlockInv` it asks nothing of the
configuration and of FAULT_CMD, so START establishes it from every unfaulted state. -/
structure Encoding (s : State) : Prop where
  ready : Ready s
  dict : DictInv s.dict s.nextCode
  phrase : s.phrase = [] ∧ s.nextCode = 18 ∨ Coded s.dict s.phrase
  width : s.curWidth = max 5 (bitlen s.nextCode)

theorem Encoding.five_le_curWidth {s : State} (h : Encoding s) : 5 ≤ s.curWidth := by
  rw [h.width]
  exact le_max_left ..

theorem Encoding.nextCode_fits {s : State} (h : Encoding s) : s.nextCode < 2 ^ s.curWidth := by
  rw [h.width]
  exact (lt_two_pow_bitlen _).trans_le (Nat.pow_le_pow_right (by omega) (le_max_right _ _))

theorem Encoding.coded {s : State} (h : Encoding s) (hp : s.phrase ≠ []) : Coded s.dict s.phrase :=
  h.phrase.resolve_left fun he => hp he.1

theorem DictInv.codeOf_lt {d : Dict} {n : Nat} (h : DictInv d n) {p : Phrase} {k : Nat}
    (hk : codeOf d p = some k) : k < n := by
  match p with
  | [] => cases hk
  | [c] =>
    have hn := h.first_le
    cases hk
    omega
  | _ :: _ :: _ => exact ((h.codes k).mp ⟨_, hk⟩).2

/-- A buffered phrase has a code, and it fits the width (R98, R105). -/
theorem Encoding.exists_code {s : State} (h : Encoding s) (hp : s.phrase ≠ []) :
    ∃ code, codeOf s.dict s.phrase = some code ∧ code < 2 ^ s.curWidth := by
  obtain ⟨code, hcode⟩ := codeOf_isSome hp (h.coded hp)
  exact ⟨code, hcode, (h.dict.codeOf_lt hcode).trans h.nextCode_fits⟩

/-! #### One symbol -/

theorem Encoding.first {s : State} {c : ColorIndex} (h : Encoding s) :
    Encoding (countSymbol (lzwFirst c s)) where
  ready := ⟨h.ready.1, rfl⟩
  dict := h.dict
  phrase := .inr (.inl rfl)
  width := h.width

theorem Encoding.known {s : State} {c : ColorIndex} {k : Nat} (h : Encoding s)
    (present : Dict.read s.dict (s.phrase ++ [c]) = some k) :
    Encoding (countSymbol (lzwMatch c s)) where
  ready := h.ready
  dict := h.dict
  phrase := .inr (.inr ⟨k, present⟩)
  width := h.width

theorem Encoding.mismatch {s : State} {c : ColorIndex} {code : Nat} (h : Encoding s)
    (hp : s.phrase ≠ []) (absent : Dict.read s.dict (s.phrase ++ [c]) = none) :
    Encoding (afterMismatch c code s) where
  ready := h.ready
  dict := h.dict.write (h.coded hp) absent
  phrase := .inr (.inl rfl)
  width := by
    simp only [afterMismatch, h.width]
    exact (max_bitlen_succ _).symm

/-- A symbol counted now or later is counted once (R18). -/
theorem countThrough_countUp (n : BitVec 32) (more : Nat) :
    countThrough (countUp n) more = countThrough n (more + 1) := by
  rw [countThrough, countUp_toNat, countThrough]
  omega

/-! A symbol that pushes nothing has no part in the words left but through the codes left. -/

theorem prospect_first {s : State} {c : ColorIndex} (rest : List ColorIndex) (hp : s.phrase = []) :
    prospect (countSymbol (lzwFirst c s)) rest = prospect s (c :: rest) := by
  simp [prospect, wordsLeft, codesLeft_first hp, countThrough_countUp]

theorem prospect_known {s : State} {c : ColorIndex} {k : Nat} (rest : List ColorIndex)
    (hp : s.phrase ≠ []) (present : Dict.read s.dict (s.phrase ++ [c]) = some k) :
    prospect (countSymbol (lzwMatch c s)) rest = prospect s (c :: rest) := by
  simp [prospect, wordsLeft, codesLeft_known hp present, countThrough_countUp]

/-- The word a mismatch pushes is the first of the words left. -/
theorem Encoding.wordsLeft_mismatch {s : State} {c : ColorIndex} {code : Nat} (h : Encoding s)
    (rest : List ColorIndex) (hp : s.phrase ≠ [])
    (absent : Dict.read s.dict (s.phrase ++ [c]) = none)
    (isCode : codeOf s.dict s.phrase = some code) :
    wordsLeft s (c :: rest) = (code, s.curWidth) :: wordsLeft (afterMismatch c code s) rest := by
  have hn := h.dict.first_le
  have hnext : (afterMismatch c code s).nextCode = s.nextCode + 1 := rfl
  have hdata : s.nextCode + 1 - 17 = s.nextCode - 17 + 1 := by omega
  have heoi : ∀ l, s.nextCode + 1 - 18 + l = s.nextCode - 18 + (l + 1) := by omega
  rw [wordsLeft, wordsLeft, codesLeft_mismatch hp absent isCode, withWidths, dataWidth_sub hn,
    ← h.width, hnext, hdata, heoi, List.length_cons, List.cons_append]

theorem Encoding.prospect_mismatch {s : State} {c : ColorIndex} {code : Nat} (h : Encoding s)
    (rest : List ColorIndex) (hp : s.phrase ≠ [])
    (absent : Dict.read s.dict (s.phrase ++ [c]) = none)
    (isCode : codeOf s.dict s.phrase = some code) :
    prospect (afterMismatch c code s) rest = prospect s (c :: rest) := by
  rw [prospect, prospect, h.wordsLeft_mismatch rest hp absent isCode,
    codesLeft_mismatch hp absent isCode, streamNumber, streamBits_cons, List.length_cons,
    List.length_cons, ← countThrough_countUp]
  simp only [afterMismatch, Nat.add_assoc, Nat.add_comm 1]

/-- A mismatch with room ahead does not overflow: its own code and one more are still to come. -/
theorem roomy_of_fits {s : State} {c : ColorIndex} {code : Nat} {rest : List ColorIndex}
    (hp : s.phrase ≠ []) (absent : Dict.read s.dict (s.phrase ++ [c]) = none)
    (isCode : codeOf s.dict s.phrase = some code) (hfits : (prospect s (c :: rest)).Fits) :
    s.nextCode + 1 < 2 ^ s.curWidth ∨ s.params.maxWidth ≠ .bounded s.curWidth := by
  refine or_iff_not_imp_right.mpr fun hlimit => ?_
  have hend : s.nextCode + (codesLeft s (c :: rest)).length ≤ 2 ^ s.curWidth :=
    hfits.le (not_not.mp hlimit)
  have hmore := dataCodes_length_pos (Dict.write s.dict (s.phrase ++ [c]) s.nextCode)
    (s.nextCode + 1) [c] rest
  rw [codesLeft_mismatch hp absent isCode, codesLeft_buffered (by simp [afterMismatch]),
    List.length_cons] at hend
  simp only [afterMismatch] at hend
  omega

/-- Supplying a symbol keeps an encode running and its prospect as it is (R121 to R124). -/
theorem Encoding.supply {i : Instr} {c : ColorIndex} {s : State} {rest : List ColorIndex}
    (hi : Supplies i c) (h : Encoding s) (hfits : (prospect s (c :: rest)).Fits) :
    ∃ u, exec i s = .next u ∧ Encoding u ∧ prospect u rest = prospect s (c :: rest) := by
  obtain ⟨hf, hrun⟩ := h.ready
  by_cases hp : s.phrase = []
  · exact ⟨_, exec_of_performed hf h.five_le_curWidth (.first hi hrun hp), h.first,
      prospect_first rest hp⟩
  · cases hr : Dict.read s.dict (s.phrase ++ [c]) with
    | some k =>
      exact ⟨_, exec_of_performed hf h.five_le_curWidth (.known hi hrun hp hr), h.known hr,
        prospect_known rest hp hr⟩
    | none =>
      obtain ⟨code, isCode, fits⟩ := h.exists_code hp
      have hroom := roomy_of_fits hp hr isCode hfits
      have hw : 1 ≤ s.curWidth := (by decide : 1 ≤ 5).trans h.five_le_curWidth
      exact ⟨_, exec_of_performed hf h.five_le_curWidth
        (.mismatch hi hrun hp hr hroom isCode hw fits), h.mismatch hp hr,
        h.prospect_mismatch rest hp hr isCode⟩

/-! #### All symbols -/

theorem Encoding.supplyAll {commands : List Instr} {symbols : List ColorIndex} {s : State}
    (hc : List.Forall₂ Supplies commands symbols) (h : Encoding s)
    (hfits : (prospect s symbols).Fits) :
    ∃ t, execAll commands s = .next t ∧ Encoding t ∧ prospect t [] = prospect s symbols := by
  induction hc generalizing s with
  | nil => exact ⟨s, rfl, h, rfl⟩
  | cons hi _ ih =>
    obtain ⟨u, hu, hEnc, hsame⟩ := h.supply hi hfits
    rw [← hsame] at hfits ⊢
    rw [execAll_cons_next hu]
    exact ih hEnc hfits

/-! #### START -/

theorem started_encoding {s : State} (hf : s.fault = 0) : Encoding (started s) where
  ready := ⟨hf, rfl⟩
  dict := DictInv.nil
  phrase := .inl ⟨rfl, rfl⟩
  width := show 5 = max 5 (bitlen 18) by decide

theorem codesLeft_started (s : State) (symbols : List ColorIndex) :
    codesLeft (started s) symbols = allDataCodes symbols := by
  cases symbols <;> rfl

/-- After Clear, the words left are those of R67. -/
theorem emittedCodes_eq (s : State) (symbols : List ColorIndex) :
    emittedCodes symbols = (16, 5) :: wordsLeft (started s) symbols := by
  rw [wordsLeft, codesLeft_started, emittedCodes]
  simp

/-- What START makes of the symbols: the stream of R127 and the configuration. -/
def encodeProspect (s : State) (symbols : List ColorIndex) : Prospect where
  number := streamNumber 0 (emittedCodes symbols)
  bits := streamBits (emittedCodes symbols)
  endCode := 18 + (allDataCodes symbols).length
  count := countThrough 0 symbols.length
  width := s.width
  height := s.height
  delayMs := s.delayMs
  params := s.params

theorem prospect_started (s : State) (symbols : List ColorIndex) :
    prospect (started s) symbols = encodeProspect s symbols := by
  simp [prospect, encodeProspect, codesLeft_started, emittedCodes_eq s, streamNumber, streamBits_cons]

/-- `FitsLimit` (R128) in terms of the prospect. -/
theorem encodeProspect_fits {s : State} {symbols : List ColorIndex} :
    (encodeProspect s symbols).Fits ↔ FitsLimit s.params.maxWidth symbols := by
  simp only [Prospect.Fits, encodeProspect, FitsLimit]
  cases s.params.maxWidth with
  | bounded m => simp only; omega
  | unbounded => rfl

/-- START and the symbols, from every unfaulted state, when none of them overflows (R127). -/
theorem start_supplyAll {commands : List Instr} {symbols : List ColorIndex} {s : State}
    (hc : List.Forall₂ Supplies commands symbols) (hf : s.fault = 0)
    (hfits : FitsLimit s.params.maxWidth symbols) :
    ∃ t, execAll (.start :: commands) s = .next t ∧ Encoding t ∧
      prospect t [] = encodeProspect s symbols := by
  rw [execAll_cons_next (exec_start_unfaulted hf), ← prospect_started]
  refine (started_encoding hf).supplyAll hc ?_
  rw [prospect_started]
  exact encodeProspect_fits.mpr hfits

/-! #### The end of the encode -/

/-- FINISH returns the bytes of the padded accumulator (R107). -/
theorem finish_bytes (s : State) : (finish s).2 = packedBytes s.acc ((s.nbits + 7) / 8) := by
  have h : (s.nbits + padding s.nbits) / 8 = (s.nbits + 7) / 8 := by
    rw [padding]
    omega
  rw [finish, padToByte_acc, padToByte_nbits, h]

/-- LZW_END pushes exactly the words left (R125, R126). -/
theorem Encoding.endCodes {s : State} (h : Encoding s) :
    ∃ codes, EndCodes s codes ∧ codes.map (fun c => (c, s.curWidth)) = wordsLeft s [] := by
  by_cases hp : s.phrase = []
  · have hn : s.nextCode = 18 := by
      rcases h.phrase with ⟨-, hn⟩ | hc
      · exact hn
      · have := hc.length_pos h.dict
        simp [hp] at this
    refine ⟨[17], .eoi hp, ?_⟩
    have hw : max 5 (bitlen 18) = dataWidth 0 := by decide
    simp [wordsLeft, codesLeft, hp, withWidths, h.width, hn, hw]
  · obtain ⟨code, isCode, fits⟩ := h.exists_code hp
    have hn := h.dict.first_le
    refine ⟨[code, 17], .phrase hp isCode fits, ?_⟩
    rw [wordsLeft, codesLeft_buffered hp, dataCodes, isCode, List.length_singleton,
      show s.nextCode - 18 + 1 = s.nextCode - 17 by omega]
    simp [withWidths, dataWidth_sub hn, h.width]

/-- The bytes FINISH returns behind LZW_END are those of the prospect. -/
theorem finish_afterEnd {s : State} {codes : List Nat}
    (hwords : codes.map (fun c => (c, s.curWidth)) = wordsLeft s []) :
    (finish (afterEnd codes s)).2 =
      packedBytes (prospect s []).number (((prospect s []).bits + 7) / 8) := by
  rw [finish_bytes, afterEnd_acc, afterEnd_nbits, hwords]
  rfl

/-- SAVE with the right count delivers the file around the prospect's bytes (R177). -/
theorem Encoding.save {s : State} (h : Encoding s)
    (hcount : s.symCount.toNat = s.width.toNat * s.height.toNat) :
    ∃ t, exec .save s = .next t ∧ Successful t ∧
      t.out = assemble s.params.gct s.width s.height s.delayMs
        (packedBytes (prospect s []).number (((prospect s []).bits + 7) / 8)) := by
  obtain ⟨hf, hrun⟩ := h.ready
  obtain ⟨codes, hcodes, hwords⟩ := h.endCodes
  have hw := h.five_le_curWidth
  have h17 : 17 < 2 ^ s.curWidth :=
    (by decide : 17 < 2 ^ 5).trans_le (Nat.pow_le_pow_right (by decide) hw)
  refine ⟨_, exec_of_performed hf hw (.save hrun hcount hcodes ((by decide : 1 ≤ 5).trans hw) h17),
    ⟨?_, ?_⟩, ?_⟩
  · simpa using hf
  · simp
  · simp [finish_afterEnd hwords]

/-- The pixels as the symbols they supply (R174). -/
theorem supplies_pixels (pixels : List (Byte × Byte × Byte × Byte)) :
    List.Forall₂ Supplies (pixels.map fun p => .pix p.1 p.2.1 p.2.2.1 p.2.2.2)
      (pixels.map fun p => index p.1 p.2.1 p.2.2.1 p.2.2.2) := by
  rw [List.forall₂_map_left_iff, List.forall₂_map_right_iff, List.forall₂_same]
  exact fun p _ => .inr ⟨_, _, _, _, rfl, rfl⟩

/-- The counter cannot saturate on an image (R18, R182). -/
theorem pixelCount_le (w h : BitVec 16) : w.toNat * h.toNat ≤ 2 ^ 32 - 1 := by
  have hle : w.toNat * h.toNat ≤ 65535 * 65535 :=
    Nat.mul_le_mul (by have := w.isLt; omega) (by have := h.isLt; omega)
  omega

/-- A counter that has not saturated holds the number of symbols. -/
theorem toNat_of_countThrough {n : BitVec 32} {more : Nat} (hle : more ≤ 2 ^ 32 - 1)
    (h : countThrough n 0 = countThrough 0 more) : n.toNat = more := by
  have hn := n.isLt
  have hzero : (0 : BitVec 32).toNat = 0 := rfl
  rw [countThrough, countThrough, hzero] at h
  omega

/-- Settles O53: START makes the prospect of the pixels' indices, PIX by PIX leaves it, SAVE delivers
it. -/
theorem pixelsBecomeTheFile : Obligations.PixelsBecomeTheFile := by
  intro pixels s hf _ hlen hfits
  obtain ⟨u, hu, hEnc, hsame⟩ := start_supplyAll (supplies_pixels pixels) hf hfits
  have hwidth : u.width = s.width := congrArg Prospect.width hsame
  have hheight : u.height = s.height := congrArg Prospect.height hsame
  have hdelay : u.delayMs = s.delayMs := congrArg Prospect.delayMs hsame
  have hparams : u.params = s.params := congrArg Prospect.params hsame
  have hcount : u.symCount.toNat = u.width.toNat * u.height.toNat := by
    rw [hwidth, hheight, ← hlen]
    refine toNat_of_countThrough (hlen ▸ pixelCount_le ..) ((congrArg Prospect.count hsame).trans ?_)
    rw [encodeProspect, List.length_map]
  obtain ⟨t, ht, hsucc, hout⟩ := hEnc.save hcount
  refine ⟨t, ?_, hsucc, ?_⟩
  · rw [execAll_append _ hu, execAll_cons_next ht]
    rfl
  · rw [hout, hsame, hwidth, hheight, hdelay, hparams]
    rfl

end Sys2Proof.Machine

namespace Sys2Proof.Machine

/-! ### The other fields LZW_END leaves (R125) -/

@[simp] theorem afterEnd_faultCmd (codes : List Nat) (s : State) :
    (afterEnd codes s).faultCmd = s.faultCmd := by rw [afterEnd_eq]
@[simp] theorem afterEnd_phrase (codes : List Nat) (s : State) :
    (afterEnd codes s).phrase = s.phrase := by rw [afterEnd_eq]
@[simp] theorem afterEnd_dict (codes : List Nat) (s : State) :
    (afterEnd codes s).dict = s.dict := by rw [afterEnd_eq]
@[simp] theorem afterEnd_nextCode (codes : List Nat) (s : State) :
    (afterEnd codes s).nextCode = s.nextCode := by rw [afterEnd_eq]
@[simp] theorem afterEnd_symCount (codes : List Nat) (s : State) :
    (afterEnd codes s).symCount = s.symCount := by rw [afterEnd_eq]
@[simp] theorem afterEnd_out (codes : List Nat) (s : State) :
    (afterEnd codes s).out = s.out := by rw [afterEnd_eq]
@[simp] theorem afterEnd_reply (codes : List Nat) (s : State) :
    (afterEnd codes s).reply = s.reply := by rw [afterEnd_eq]
@[simp] theorem afterEnd_cmdIndex (codes : List Nat) (s : State) :
    (afterEnd codes s).cmdIndex = s.cmdIndex := by rw [afterEnd_eq]
@[simp] theorem afterEnd_input (codes : List Nat) (s : State) :
    (afterEnd codes s).input = s.input := by rw [afterEnd_eq]

/-! ### One step, by what the host does (R24, R49, R230) -/

theorem step_command {w : CmdWord} {rest : List HostInput} {s : State}
    (hin : s.input = .command w :: rest) : step s = presentWord w (takeCommand rest s) := by
  rw [step, hin]
  rfl

theorem step_reset {rest : List HostInput} {s : State} (hin : s.input = .reset :: rest) :
    step s = .next (resetEvent (takeInput rest s)) := by
  rw [step, hin]
  rfl

/-- A read asks for nothing the host's plan is part of (R40, R42). -/
theorem readPort_takeInput (p : Port) (rest : List HostInput) (s : State) :
    readPort p (takeInput rest s) = readPort p s := by
  cases p <;> rfl

theorem step_read {p : Port} {v : HostValue} {rest : List HostInput} {s : State}
    (hin : s.input = .read p :: rest) (hv : readPort p s = some v) :
    step s = .next { s with input := rest, reply := some v } := by
  rw [step, hin]
  show hostRead p (takeInput rest s) = _
  rw [hostRead, readPort_takeInput, hv]
  rfl

theorem presentWord_decoded {w : CmdWord} {i : Instr} (hd : decode w = some i) (s : State) :
    presentWord w s = exec i s := by
  rw [presentWord, hd]

theorem presentWord_undecoded {w : CmdWord} (hd : decode w = none) (s : State) :
    presentWord w s = illegalCommand w s := by
  rw [presentWord, hd]

/-- Settles O25: the state the command is executed in is `takeCommand`'s. -/
theorem stepExecutesTheDecodedCommand : Obligations.StepExecutesTheDecodedCommand := by
  intro w i rest s hin hd
  rw [step_command hin, presentWord_decoded hd]
  rfl

/-- Settles O27, by the definition of the reset state. -/
theorem resetValuesAreTheTables : Obligations.ResetValuesAreTheTables :=
  ⟨rfl, rfl, rfl, rfl, rfl, rfl, rfl, rfl, rfl, rfl, rfl, rfl, rfl, rfl⟩

/-- Settles O28: `resetEvent` writes the values of the reset state (R31). -/
theorem resetEventRestoresTheResetState : Obligations.ResetEventRestoresTheResetState := by
  intro rest s hin
  rw [step_reset hin]
  rfl

/-! ### CMD_INDEX and the host's input: commands leave both (R24) -/

theorem Performed.host {i : Instr} {s t : State} (h : Performed s i t) :
    t.cmdIndex = s.cmdIndex ∧ t.input = s.input := by
  cases h <;> simp [afterMismatch]

theorem exec_host {i : Instr} {s t : State} (h : exec i s = .next t) :
    t.cmdIndex = s.cmdIndex ∧ t.input = s.input := by
  rcases exec_cases h with ⟨-, rfl⟩ | ⟨-, cause, -, rfl⟩ | ⟨-, hp⟩
  · exact ⟨rfl, rfl⟩
  · exact ⟨rfl, rfl⟩
  · exact hp.host

theorem presentWord_host {w : CmdWord} {s t : State} (h : presentWord w s = .next t) :
    t.cmdIndex = s.cmdIndex ∧ t.input = s.input := by
  rcases presentWord_cases h with ⟨i, -, h⟩ | ⟨-, -, rfl⟩ | ⟨-, -, rfl⟩
  · exact exec_host h
  · exact ⟨rfl, rfl⟩
  · exact ⟨rfl, rfl⟩

/-- A step on a command word takes and counts that word, whatever the word then does (R24). -/
theorem step_command_host {w : CmdWord} {rest : List HostInput} {s t : State}
    (hin : s.input = .command w :: rest) (h : step s = .next t) :
    t.cmdIndex = s.cmdIndex + 1 ∧ t.input = rest := by
  rw [step_command hin] at h
  exact presentWord_host h

/-- Settles O26: the word is counted when it is taken, and what it does counts nothing. -/
theorem commandIndexCountsCommands : Obligations.CommandIndexCountsCommands := by
  intro s t h
  refine ⟨fun w rest hin => (step_command_host hin h).1, fun hno => ?_⟩
  rcases step_cases h with ⟨-, rfl⟩ | ⟨w, rest, hin, -⟩ | ⟨rest, -, rfl⟩ | ⟨p, v, rest, -, -, rfl⟩
  · rfl
  · exact absurd hin (hno w rest)
  · rfl
  · rfl

/-! ### The stores stay in canonical form (R26, R41) -/

/-- The codes of LZW_END fit the width at which they are pushed (R105, R125). -/
theorem EndCodes.fit {s : State} {codes : List Nat} (h : EndCodes s codes)
    (h17 : 17 < 2 ^ s.curWidth) : ∀ c ∈ codes, c < 2 ^ s.curWidth := by
  cases h with
  | eoi empty => simpa using h17
  | phrase buffered isCode fits => simpa using ⟨fits, h17⟩

theorem foldl_pushBits_memory {codes : List Nat} {s : State} (h : Memory.wf s)
    (fit : ∀ c ∈ codes, c < 2 ^ s.curWidth) :
    Memory.wf (codes.foldl (fun s c => pushBits c s.curWidth s) s) := by
  induction codes generalizing s with
  | nil => exact h
  | cons c rest ih =>
    obtain ⟨hc, hrest⟩ := List.forall_mem_cons.mp fit
    exact ih (pushBits_memory h hc) hrest

theorem afterEnd_memory {codes : List Nat} {s : State} (h : Memory.wf s)
    (fit : ∀ c ∈ codes, c < 2 ^ s.curWidth) : Memory.wf (afterEnd codes s) :=
  foldl_pushBits_memory h fit

theorem started_memory (s : State) : Memory.wf (started s) :=
  ⟨Dict.wf_nil, show 16 < 2 ^ 5 by decide⟩

theorem Performed.memory {i : Instr} {s t : State} (hp : Performed s i t) (h : Memory.wf s) :
    Memory.wf t := by
  cases hp with
  | cfgdim => exact h
  | cfgdly => exact h
  | start => exact started_memory s
  | first => exact h
  | known => exact h
  | mismatch _ _ _ _ _ _ _ fits => exact insertEntry_memory _ _ (pushBits_memory h fits)
  | flush _ ended _ fits => exact padToByte_memory (afterEnd_memory h (ended.fit fits))
  | save _ _ ended _ fits => exact padToByte_memory (afterEnd_memory h (ended.fit fits))

theorem exec_memory {i : Instr} {s t : State} (h : Memory.wf s) (he : exec i s = .next t) :
    Memory.wf t := by
  rcases exec_cases he with ⟨-, rfl⟩ | ⟨-, cause, -, rfl⟩ | ⟨-, hp⟩
  · exact h
  · exact raise_memory cause _ h
  · exact hp.memory h

theorem presentWord_memory {w : CmdWord} {s t : State} (h : Memory.wf s)
    (hw : presentWord w s = .next t) : Memory.wf t := by
  rcases presentWord_cases hw with ⟨i, -, he⟩ | ⟨-, -, rfl⟩ | ⟨-, -, rfl⟩
  · exact exec_memory h he
  · exact h
  · exact raise_memory _ _ h

/-- Settles O31, case by case over what a step can do: only a command word writes the stores other than
to their reset values, and each of its updates keeps the form. -/
theorem stepKeepsMemoryCanonical : Obligations.StepKeepsMemoryCanonical := by
  intro s t h hstep
  rcases step_cases hstep with ⟨-, rfl⟩ | ⟨w, rest, -, hw⟩ | ⟨rest, -, rfl⟩ | ⟨p, v, rest, -, -, rfl⟩
  · exact h
  · exact presentWord_memory (s := takeCommand rest s) h hw
  · exact resetEvent_memory _
  · exact h

/-! ### The invariant of the block: what every update keeps -/

theorem BlockInv.five_le_curWidth {s : State} (h : BlockInv s) : 5 ≤ s.curWidth := by
  rw [h.width]
  exact le_max_left ..

/-- The invariant speaks of the block and its parameters: what the host does is free. -/
theorem BlockInv.withHost {s : State} (h : BlockInv s) (index : Nat) (input : List HostInput)
    (reply : Option HostValue) :
    BlockInv { s with cmdIndex := index, input := input, reply := reply } :=
  { h with }

/-- MAX_WIDTH admits the width an encode begins with (R8). -/
theorem withinLimit_five {p : Params} (h : p.Legal) : WithinLimit p.maxWidth 5 := by
  unfold Params.Legal at h
  cases hm : p.maxWidth with
  | bounded m => simpa [hm, WithinLimit] using h
  | unbounded => trivial

/-- The reset event establishes the invariant, whatever held before (R31, R230). -/
theorem resetEvent_blockInv {s : State} (hp : s.params.Legal) : BlockInv (resetEvent s) where
  memory := resetEvent_memory s
  params := hp
  dimensions := show defaultWidth ≠ 0 ∧ defaultHeight ≠ 0 by decide
  causes := Nat.zero_le 5
  noFaultCmd _ := rfl
  dict := DictInv.nil
  phrase := .inl rfl
  width := show 5 = max 5 (bitlen 18) by decide
  limit := withinLimit_five hp
  empty h := by cases h
  accumulating h := by cases h
  bits h := by cases h
  counted h := by cases h
  output _ := rfl

theorem BlockInv.raised {s : State} (h : BlockInv s) (cause : FaultCause) (w : CmdWord) :
    BlockInv (raise cause w s) :=
  { h with
    causes := show cause.code.toNat ≤ 5 by cases cause <;> decide
    noFaultCmd := fun hf => absurd hf (code_ne_zero cause) }

theorem BlockInv.withDimensions {s : State} {x y : BitVec 16} (h : BlockInv s)
    (nonzero : x ≠ 0 ∧ y ≠ 0) : BlockInv (setDimensions x y s) :=
  { h with dimensions := nonzero }

theorem BlockInv.withDelay {s : State} (h : BlockInv s) (d : BitVec 16) :
    BlockInv (setDelay d s) :=
  { h with }

/-- START establishes what the invariant says of the encoder and leaves the configuration (R120). -/
theorem BlockInv.afterStart {s : State} (h : BlockInv s) : BlockInv (started s) :=
  { h with
    memory := started_memory s
    dict := DictInv.nil
    phrase := .inl rfl
    width := show 5 = max 5 (bitlen 18) by decide
    limit := withinLimit_five h.params
    empty := fun _ => ⟨rfl, rfl, rfl, rfl, rfl⟩
    accumulating := fun hz => by cases hz
    bits := fun _ => rfl
    counted := fun hz => by cases hz
    output := fun _ => rfl }

/-- In a running encode, LZ_STATE tells whether a phrase is buffered (R14). -/
theorem BlockInv.empty_of_phrase {s : State} (h : BlockInv s) (running : s.lzState.running = true)
    (hp : s.phrase = []) : s.lzState = .empty := by
  cases hz : s.lzState with
  | empty => rfl
  | accumulating => exact absurd hp (h.accumulating hz)
  | idle => simp [hz] at running
  | flushed => simp [hz] at running

theorem BlockInv.accumulating_of_phrase {s : State} (h : BlockInv s)
    (running : s.lzState.running = true) (hp : s.phrase ≠ []) : s.lzState = .accumulating := by
  cases hz : s.lzState with
  | empty => exact absurd (h.empty hz).1 hp
  | accumulating => rfl
  | idle => simp [hz] at running
  | flushed => simp [hz] at running

/-- No symbol since START, so nothing has been inserted (R120, R126). -/
theorem BlockInv.nextCode_of_empty {s : State} (h : BlockInv s) (hz : s.lzState = .empty) :
    s.nextCode = 18 := by
  obtain ⟨-, hd, -⟩ := h.empty hz
  rw [← h.dict.entries, hd]
  rfl

/-- SYMCOUNT below its greatest value counts the symbol exactly (R18). -/
theorem countUp_toNat_of_lt {n : BitVec 32} (h : (countUp n).toNat < 2 ^ 32 - 1) :
    (countUp n).toNat = n.toNat + 1 := by
  rw [countUp_toNat] at h ⊢
  omega

/-- One symbol more leaves room for one insertion more (R132). -/
theorem BlockInv.counted_countUp {s : State} (h : BlockInv s) (hz : s.lzState = .accumulating)
    (hlt : (countUp s.symCount).toNat < 2 ^ 32 - 1) :
    s.nextCode + 1 < (countUp s.symCount).toNat + 18 := by
  have hone := countUp_toNat_of_lt hlt
  have hmore := h.counted hz (by omega)
  omega

theorem BlockInv.first {s : State} {c : ColorIndex} (h : BlockInv s)
    (running : s.lzState.running = true) (hp : s.phrase = []) :
    BlockInv (countSymbol (lzwFirst c s)) :=
  have hz := h.empty_of_phrase running hp
  { h with
    phrase := .inr (.inl rfl)
    empty := fun hz => by cases hz
    accumulating := fun _ => List.cons_ne_nil _ _
    bits := fun _ => h.bits running
    counted := fun _ hlt => by
      have hone : (countUp s.symCount).toNat = s.symCount.toNat + 1 := countUp_toNat_of_lt hlt
      have hnext := h.nextCode_of_empty hz
      show s.nextCode < (countUp s.symCount).toNat + 18
      omega
    output := fun _ => h.output (ne_flushed_of_running running) }

theorem BlockInv.known {s : State} {c : ColorIndex} {k : Nat} (h : BlockInv s)
    (running : s.lzState.running = true) (hp : s.phrase ≠ [])
    (present : Dict.read s.dict (s.phrase ++ [c]) = some k) :
    BlockInv (countSymbol (lzwMatch c s)) :=
  have hz := h.accumulating_of_phrase running hp
  { h with
    phrase := .inr (.inr ⟨k, present⟩)
    empty := fun he => by
      rw [countSymbol_lzState, lzwMatch_lzState, hz] at he
      cases he
    accumulating := fun _ => by simp [extend]
    counted := fun _ hlt => Nat.lt_of_succ_lt (h.counted_countUp hz hlt) }

/-- The width after a mismatch is within the limit: with no room at the limit the symbol had overflowed
(R128). -/
theorem withinLimit_grow {limit : WidthLimit} {next width : Nat} (h : WithinLimit limit width)
    (roomy : next + 1 < 2 ^ width ∨ limit ≠ .bounded width) :
    WithinLimit limit (if 2 ^ width ≤ next + 1 then width + 1 else width) := by
  split
  · next grows =>
    cases limit with
    | bounded m =>
      have hne : m ≠ width := by
        rintro rfl
        exact roomy.elim (fun hlt => by omega) (fun hne => hne rfl)
      exact Nat.lt_of_le_of_ne h hne.symm
    | unbounded => trivial
  · exact h

theorem BlockInv.mismatch {s : State} {c : ColorIndex} {code : Nat} (h : BlockInv s)
    (running : s.lzState.running = true) (hp : s.phrase ≠ [])
    (absent : Dict.read s.dict (s.phrase ++ [c]) = none)
    (roomy : s.nextCode + 1 < 2 ^ s.curWidth ∨ s.params.maxWidth ≠ .bounded s.curWidth)
    (fits : code < 2 ^ s.curWidth) : BlockInv (afterMismatch c code s) :=
  have hz := h.accumulating_of_phrase running hp
  have coded : Coded s.dict s.phrase := h.phrase.resolve_left hp
  { h with
    memory := insertEntry_memory _ _ (pushBits_memory h.memory fits)
    dict := h.dict.write coded absent
    phrase := .inr (.inl rfl)
    width := by
      simp only [afterMismatch, h.width]
      exact (max_bitlen_succ _).symm
    limit := withinLimit_grow h.limit roomy
    empty := fun he => by
      rw [show s.lzState = .empty from he] at hz
      cases hz
    accumulating := fun _ => List.cons_ne_nil _ _
    bits := fun _ => by
      have hn := h.dict.first_le
      have hone : s.nextCode + 1 - 18 = s.nextCode - 18 + 1 := by omega
      simp only [afterMismatch, h.bits running, hone, bitsThrough, dataWidth_eq,
        Nat.sub_add_cancel hn, h.width]
    counted := fun _ hlt => h.counted_countUp hz hlt }

/-- What LZW_END, FINISH and the delivery of any OUT leave (R125, R176, R177). -/
theorem BlockInv.delivered {s : State} {codes : List Nat} (h : BlockInv s)
    (fit : ∀ c ∈ codes, c < 2 ^ s.curWidth) (out : List Byte) :
    BlockInv { padToByte (afterEnd codes s) with out := out } := by
  have stores := padToByte_memory (afterEnd_memory h.memory fit)
  rw [afterEnd_eq] at stores ⊢
  exact { h with
    memory := stores
    empty := fun hz => by cases hz
    accumulating := fun hz => by cases hz
    bits := fun hz => by cases hz
    counted := fun hz => by cases hz
    output := fun hz => absurd rfl hz }

/-! ### Every step keeps the invariant -/

theorem Performed.blockInv {i : Instr} {s t : State} (hp : Performed s i t) (h : BlockInv s) :
    BlockInv t := by
  cases hp with
  | cfgdim nonzero => exact h.withDimensions nonzero
  | cfgdly => exact h.withDelay _
  | start => exact h.afterStart
  | first _ running empty => exact h.first running empty
  | known _ running buffered present => exact h.known running buffered present
  | mismatch _ running buffered absent roomy _ _ fits =>
    exact h.mismatch running buffered absent roomy fits
  | flush _ ended _ fits => exact h.delivered (ended.fit fits) _
  | save _ _ ended _ fits => exact h.delivered (ended.fit fits) _

theorem BlockInv.of_exec {i : Instr} {s t : State} (h : BlockInv s) (he : exec i s = .next t) :
    BlockInv t := by
  rcases exec_cases he with ⟨-, rfl⟩ | ⟨-, cause, -, rfl⟩ | ⟨-, hp⟩
  · exact h
  · exact h.raised cause _
  · exact hp.blockInv h

theorem BlockInv.of_presentWord {w : CmdWord} {s t : State} (h : BlockInv s)
    (hw : presentWord w s = .next t) : BlockInv t := by
  rcases presentWord_cases hw with ⟨i, -, he⟩ | ⟨-, -, rfl⟩ | ⟨-, -, rfl⟩
  · exact h.of_exec he
  · exact h
  · exact h.raised _ _

/-- Settles O30, case by case over what a step can do: the reset event establishes the invariant, waiting
and reading touch nothing it speaks of, and a command word does one of the updates above. -/
theorem stepKeepsInvariant : Obligations.StepKeepsInvariant := by
  intro s t h hstep
  rcases step_cases hstep with ⟨-, rfl⟩ | ⟨w, rest, -, hw⟩ | ⟨rest, -, rfl⟩ | ⟨p, v, rest, -, -, rfl⟩
  · exact h
  · exact (h.withHost (s.cmdIndex + 1) rest s.reply).of_presentWord hw
  · exact resetEvent_blockInv h.params
  · exact h.withHost s.cmdIndex rest (some v)

/-- Settles O29: the reset state is what the reset event makes of itself. -/
theorem resetStateMeetsInvariant : Obligations.ResetStateMeetsInvariant :=
  resetEvent_blockInv (s := State.reset) (show 5 ≤ 12 by decide)

/-! ### SAVE's count (R18, R177) -/

/-- No image has as many pixels as the counter saturates at (R18, R182). -/
theorem pixelCount_lt (w h : BitVec 16) : w.toNat * h.toNat < 2 ^ 32 - 1 := by
  have hle : w.toNat * h.toNat ≤ 65535 * 65535 :=
    Nat.mul_le_mul (by have := w.isLt; omega) (by have := h.isLt; omega)
  omega

/-- Settles O12: an image has at least one pixel, where state Empty has counted none, and fewer than
2^32 - 1. -/
theorem counterNeverFakesAPixelCount : Obligations.CounterNeverFakesAPixelCount := by
  constructor
  · intro s h hf hz
    obtain ⟨-, -, -, -, hcount⟩ := h.empty hz
    obtain ⟨hw, hh⟩ := h.dimensions
    refine exec_of_raises hf (.count (by rw [hz]; rfl) ?_)
    have hpos : s.width.toNat * s.height.toNat ≠ 0 :=
      Nat.mul_ne_zero (BitVec.toNat_ne_iff_ne.mpr hw) (BitVec.toNat_ne_iff_ne.mpr hh)
    rw [hcount]
    exact hpos.symm
  · intro s ⟨hf, hrun⟩ hcount
    have hlt := pixelCount_lt s.width s.height
    exact exec_of_raises hf (.count hrun (by omega))

/-! ### Under the invariant every command completes (R98, R130, R131) -/

/-- A running encode of a block with the invariant is one of `Encoding`. -/
theorem BlockInv.encoding {s : State} (h : BlockInv s) (ready : Ready s) : Encoding s where
  ready := ready
  dict := h.dict
  phrase := by
    by_cases hp : s.phrase = []
    · exact .inl ⟨hp, h.nextCode_of_empty (h.empty_of_phrase ready.2 hp)⟩
    · exact .inr (h.phrase.resolve_left hp)
  width := h.width

theorem Encoding.eoi_fits {s : State} (h : Encoding s) : 17 < 2 ^ s.curWidth :=
  (by decide : 17 < 2 ^ 5).trans_le (Nat.pow_le_pow_right (by decide) h.five_le_curWidth)

theorem Encoding.one_le_curWidth {s : State} (h : Encoding s) : 1 ≤ s.curWidth :=
  (by decide : 1 ≤ 5).trans h.five_le_curWidth

/-- Every symbol is supplied or overflows (R121 to R123, R128). -/
theorem Encoding.supply_completes {i : Instr} {c : ColorIndex} {s : State} (hi : Supplies i c)
    (h : Encoding s) : Raises s i .dictionaryOverflow ∨ ∃ t, Performed s i t := by
  obtain ⟨-, hrun⟩ := h.ready
  by_cases hp : s.phrase = []
  · exact .inr ⟨_, .first hi hrun hp⟩
  cases hr : Dict.read s.dict (s.phrase ++ [c]) with
  | some k => exact .inr ⟨_, .known hi hrun hp hr⟩
  | none =>
    by_cases hfull : 2 ^ s.curWidth ≤ s.nextCode + 1 ∧ s.params.maxWidth = .bounded s.curWidth
    · exact .inl (.overflow hi hrun hp hr hfull.1 hfull.2)
    · obtain ⟨code, isCode, fits⟩ := h.exists_code hp
      rw [not_and_or, Nat.not_le] at hfull
      exact .inr ⟨_, .mismatch hi hrun hp hr hfull isCode h.one_le_curWidth fits⟩

/-- Every command raises a fault or is performed (R170). -/
theorem BlockInv.raises_or_performed {s : State} (h : BlockInv s) (hf : s.fault = 0) (i : Instr) :
    (∃ cause, Raises s i cause) ∨ ∃ t, Performed s i t := by
  have outOfSequence : NeedsEncode i → s.lzState.running = false →
      (∃ cause, Raises s i cause) ∨ ∃ t, Performed s i t :=
    fun hi hrun => .inl ⟨_, .sequence hi hrun⟩
  rcases instr_cases i with ⟨w, y, rfl⟩ | ⟨d, rfl⟩ | rfl | ⟨c, hc⟩ | rfl | rfl
  · by_cases hz : w = 0 ∨ y = 0
    · exact .inl ⟨_, .dimensions hz⟩
    · exact .inr ⟨_, .cfgdim (not_or.mp hz)⟩
  · exact .inr ⟨_, .cfgdly⟩
  · exact .inr ⟨_, .start⟩
  · cases hrun : s.lzState.running with
    | false => exact outOfSequence (.inl ⟨c, hc⟩) hrun
    | true => exact ((h.encoding ⟨hf, hrun⟩).supply_completes hc).imp_left fun ho => ⟨_, ho⟩
  · cases hrun : s.lzState.running with
    | false => exact outOfSequence (.inr (.inl rfl)) hrun
    | true =>
      have hEnc := h.encoding ⟨hf, hrun⟩
      obtain ⟨codes, hcodes, -⟩ := hEnc.endCodes
      exact .inr ⟨_, .flush hrun hcodes hEnc.one_le_curWidth hEnc.eoi_fits⟩
  · cases hrun : s.lzState.running with
    | false => exact outOfSequence (.inr (.inr rfl)) hrun
    | true =>
      have hEnc := h.encoding ⟨hf, hrun⟩
      obtain ⟨codes, hcodes, -⟩ := hEnc.endCodes
      by_cases hcount : s.symCount.toNat = s.width.toNat * s.height.toNat
      · exact .inr ⟨_, .save hrun hcount hcodes hEnc.one_le_curWidth hEnc.eoi_fits⟩
      · exact .inl ⟨_, .count hrun hcount⟩

theorem BlockInv.exec_completes {s : State} (h : BlockInv s) (i : Instr) :
    ∃ t, exec i s = .next t := by
  by_cases hf : s.fault = 0
  · rcases h.raises_or_performed hf i with ⟨cause, hr⟩ | ⟨t, hp⟩
    · exact ⟨_, exec_of_raises hf hr⟩
    · exact ⟨t, exec_of_performed hf h.five_le_curWidth hp⟩
  · exact ⟨s, exec_frozen i hf⟩

theorem illegalCommand_completes (w : CmdWord) (s : State) : ∃ t, illegalCommand w s = .next t := by
  unfold illegalCommand
  split
  · exact ⟨s, rfl⟩
  · exact ⟨_, rfl⟩

theorem BlockInv.presentWord_completes {s : State} (h : BlockInv s) (w : CmdWord) :
    ∃ t, presentWord w s = .next t := by
  cases hd : decode w with
  | some i =>
    rw [presentWord_decoded hd]
    exact h.exec_completes i
  | none =>
    rw [presentWord_undecoded hd]
    exact illegalCommand_completes w s

theorem BlockInv.step_command_completes {w : CmdWord} {rest : List HostInput} {s : State}
    (h : BlockInv s) (hin : s.input = .command w :: rest) : ∃ t, step s = .next t ∧ BlockInv t := by
  obtain ⟨t, ht⟩ := (h.withHost (s.cmdIndex + 1) rest s.reply).presentWord_completes w
  have hstep : step s = .next t := (step_command hin).trans ht
  exact ⟨t, hstep, stepKeepsInvariant s t h hstep⟩

/-! ### Runs of command lists (R237) -/

theorem runOver_iff {s : State} : RunOver s ↔ ∀ w, HostInput.command w ∉ s.input := by
  rw [RunOver, List.all_eq_true]
  constructor
  · intro h w hmem
    cases h _ hmem
  · intro h e hmem
    cases e with
    | command w => exact absurd hmem (h w)
    | reset => rfl
    | read p => rfl

/-- A list of command words runs to its end, one step a word. -/
theorem BlockInv.stepMany_words {words : List CmdWord} {s : State} (h : BlockInv s)
    (hin : s.input = words.map .command) :
    ∃ t, stepMany words.length s = .next t ∧ t.input = [] ∧
      t.cmdIndex = s.cmdIndex + words.length ∧ BlockInv t := by
  induction words generalizing s with
  | nil => exact ⟨s, rfl, hin, rfl, h⟩
  | cons w rest ih =>
    obtain ⟨u, hu, hinv⟩ := h.step_command_completes hin
    obtain ⟨hindex, hinput⟩ := step_command_host hin hu
    obtain ⟨t, ht, hend, hcount, ht'⟩ := ih hinv hinput
    refine ⟨t, ?_, hend, ?_, ht'⟩
    · rw [List.length_cons, stepMany, hu, andThen_next, ht]
    · rw [hcount, hindex, List.length_cons, Nat.add_right_comm, Nat.add_assoc]

/-- Settles O33, by induction on the list of words; a read takes one entry, which is no command. -/
theorem commandListsRunToTheirEnd : Obligations.CommandListsRunToTheirEnd := by
  refine ⟨fun words s h hin => ?_, fun s => runOver_iff, fun p v rest s hv hin hover => ?_⟩
  · obtain ⟨t, ht, hend, hcount, hinv⟩ := h.stepMany_words hin
    exact ⟨t, ht, runOver_iff.mpr (by simp [hend]), hcount, hinv⟩
  · refine ⟨_, step_read hin hv, runOver_iff.mpr fun w hmem => ?_, rfl⟩
    exact runOver_iff.mp hover w (hin ▸ List.mem_cons_of_mem _ hmem)

/-! ### Frames of single registers (R11 to R13, R27, R40) -/

theorem Performed.dimensions {i : Instr} {s t : State} (h : Performed s i t)
    (hi : ∀ w y, i ≠ .cfgdim w y) : t.width = s.width ∧ t.height = s.height := by
  cases h with
  | cfgdim => exact absurd rfl (hi _ _)
  | _ => simp [afterMismatch]

theorem Performed.delayMs {i : Instr} {s t : State} (h : Performed s i t)
    (hi : ∀ d, i ≠ .cfgdly d) : t.delayMs = s.delayMs := by
  cases h with
  | cfgdly => exact absurd rfl (hi _)
  | _ => simp [afterMismatch]

theorem Performed.out {i : Instr} {s t : State} (h : Performed s i t) (hstart : i ≠ .start)
    (hflush : i ≠ .flush) (hsave : i ≠ .save) : t.out = s.out := by
  cases h with
  | start => exact absurd rfl hstart
  | flush => exact absurd rfl hflush
  | save => exact absurd rfl hsave
  | _ => simp [afterMismatch]

/-- Settles O35: a discarded or faulting command leaves all four registers, a performed one those it does
not write. -/
theorem registersHaveOneWriter : Obligations.RegistersHaveOneWriter := by
  intro i s t h
  rcases exec_cases h with ⟨-, rfl⟩ | ⟨-, cause, -, rfl⟩ | ⟨-, hp⟩
  · exact ⟨fun _ => ⟨rfl, rfl⟩, fun _ => rfl, fun _ _ _ _ => rfl⟩
  · exact ⟨fun _ => ⟨rfl, rfl⟩, fun _ => rfl, fun _ _ _ _ => rfl⟩
  · refine ⟨hp.dimensions, hp.delayMs, fun hstart hflush hsave k => ?_⟩
    rw [outRead, outRead, hp.out hstart hflush hsave]

/-! ### The dictionary between two STARTs (R20, R97, R99) -/

/-- DICT gains the buffered phrase extended by the symbol the command supplies, under NEXT_CODE. -/
def Inserts (i : Instr) (s t : State) : Prop :=
  ∃ c, Supplies i c ∧ s.phrase ≠ [] ∧ Dict.read s.dict (s.phrase ++ [c]) = none ∧
    t.dict = Dict.write s.dict (s.phrase ++ [c]) s.nextCode ∧ t.nextCode = s.nextCode + 1

theorem Performed.dict_cases {i : Instr} {s t : State} (h : Performed s i t) (hi : i ≠ .start) :
    t.dict = s.dict ∨ Inserts i s t := by
  cases h with
  | start => exact absurd rfl hi
  | mismatch supplies _ buffered absent =>
    exact .inr ⟨_, supplies, buffered, absent, rfl, rfl⟩
  | _ => simp

theorem exec_dict_cases {i : Instr} {s t : State} (hi : i ≠ .start) (h : exec i s = .next t) :
    t.dict = s.dict ∨ Inserts i s t := by
  rcases exec_cases h with ⟨-, rfl⟩ | ⟨-, cause, -, rfl⟩ | ⟨-, hp⟩
  · exact .inl rfl
  · exact .inl rfl
  · exact hp.dict_cases hi

/-- Settles O37: the one write of DICT is of an absent key, so it hides no entry. -/
theorem dictionaryOnlyGrows : Obligations.DictionaryOnlyGrows := by
  intro i s t hi h
  rcases exec_dict_cases hi h with hsame | ⟨x, hx, buffered, absent, hdict, hnext⟩
  · rw [hsame]
    refine ⟨fun _ _ hr => hr, fun p c hnone hr => ?_⟩
    rw [hnone] at hr
    cases hr
  · rw [hdict]
    refine ⟨fun p c hr => ?_, fun p c hnone hr => ?_⟩
    · rw [Dict.read_write_of_ne, hr]
      rintro rfl
      rw [absent] at hr
      cases hr
    · rw [Dict.read_write] at hr
      split at hr
      · next hp =>
        cases hr
        exact ⟨rfl, hnext, x, hx, buffered, hp.symm⟩
      · rw [hnone] at hr
        cases hr

/-! ### The bounds of MAX_WIDTH = 12 (R21, R99, R110) -/

/-- The data codes before NEXT_CODE outgrows `w` bits are at most `w` bits wide (R67). -/
theorem dataWidth_le {k w : Nat} (hw : 5 ≤ w) (hk : 17 + k < 2 ^ w) : dataWidth k ≤ w :=
  max_le hw ((bitlen_le_iff (by omega)).mpr hk)

/-- Data codes `k + 1` to `m` are at most `w` bits wide when the last of them is. -/
theorem bitsThrough_le {k m w : Nat} (hw : 5 ≤ w) (hkm : k ≤ m) (hm : 17 + m < 2 ^ w) :
    bitsThrough m ≤ bitsThrough k + (m - k) * w := by
  induction m, hkm using Nat.le_induction with
  | base => simp
  | succ m hkm ih =>
    have hprev := ih (by omega)
    have hlast := dataWidth_le hw hm
    rw [bitsThrough, Nat.succ_sub hkm, Nat.succ_mul]
    omega

theorem bitsThrough_mono : Monotone bitsThrough :=
  monotone_nat_of_le_succ fun _ => Nat.le_add_right _ _

/-- The bits of the longest encode of 12-bit codes, width by width (R110). -/
theorem bitsThrough_4077_le : bitsThrough 4077 ≤ 44991 := by
  have h0 : bitsThrough 0 = 5 := rfl
  have h5 : bitsThrough 14 ≤ bitsThrough 0 + (14 - 0) * 5 :=
    bitsThrough_le (by decide) (by decide) (by decide)
  have h6 : bitsThrough 46 ≤ bitsThrough 14 + (46 - 14) * 6 :=
    bitsThrough_le (by decide) (by decide) (by decide)
  have h7 : bitsThrough 110 ≤ bitsThrough 46 + (110 - 46) * 7 :=
    bitsThrough_le (by decide) (by decide) (by decide)
  have h8 : bitsThrough 238 ≤ bitsThrough 110 + (238 - 110) * 8 :=
    bitsThrough_le (by decide) (by decide) (by decide)
  have h9 : bitsThrough 494 ≤ bitsThrough 238 + (494 - 238) * 9 :=
    bitsThrough_le (by decide) (by decide) (by decide)
  have h10 : bitsThrough 1006 ≤ bitsThrough 494 + (1006 - 494) * 10 :=
    bitsThrough_le (by decide) (by decide) (by decide)
  have h11 : bitsThrough 2030 ≤ bitsThrough 1006 + (2030 - 1006) * 11 :=
    bitsThrough_le (by decide) (by decide) (by decide)
  have h12 : bitsThrough 4077 ≤ bitsThrough 2030 + (4077 - 2030) * 12 :=
    bitsThrough_le (by decide) (by decide) (by decide)
  omega

/-- LZW_END pushes two codes at most (R125). -/
theorem EndCodes.streamBits_le {s : State} {codes : List Nat} (h : EndCodes s codes) :
    streamBits (codes.map fun c => (c, s.curWidth)) ≤ 2 * s.curWidth := by
  cases h with
  | eoi empty => simp [streamBits]; omega
  | phrase buffered isCode fits => simp [streamBits]; omega

/-- FLUSH delivers the bytes of the bits pushed so far and two codes more (R107, R125, R176). -/
theorem Encoding.flush_length {s : State} (h : Encoding s) :
    ∃ t, exec .flush s = .next t ∧ t.out.length ≤ (s.nbits + 2 * s.curWidth + 7) / 8 := by
  obtain ⟨hf, hrun⟩ := h.ready
  obtain ⟨codes, hcodes, -⟩ := h.endCodes
  refine ⟨_, exec_of_performed hf h.five_le_curWidth
    (.flush hrun hcodes h.one_le_curWidth h.eoi_fits), ?_⟩
  have hbits := hcodes.streamBits_le
  rw [deliverStream_out, finish_bytes, packedBytes, List.length_map, List.length_range,
    afterEnd_nbits]
  omega

/-- Settles O42: NEXT_CODE fits 12 bits, its entries and the stream are counted by it. -/
theorem twelveBitLimitBoundsTheStores : Obligations.TwelveBitLimitBoundsTheStores := by
  intro s h hmax
  have hwidth : s.curWidth ≤ 12 := by
    have hlimit := h.limit
    rwa [hmax] at hlimit
  have hnext : s.nextCode < 2 ^ 12 :=
    h.nextCode_fits.trans_le (Nat.pow_le_pow_right (by decide) hwidth)
  have hentries := h.dict.entries
  refine ⟨by omega, by omega, fun ready => ?_⟩
  have hbits : s.nbits ≤ 44991 := by
    rw [h.bits ready.2]
    exact (bitsThrough_mono (by omega : s.nextCode - 18 ≤ 4077)).trans bitsThrough_4077_le
  obtain ⟨t, ht, hlen⟩ := (h.encoding ready).flush_length
  exact ⟨hbits, t, ht, hlen.trans (by omega)⟩

/-! ### The dictionary keyed by a phrase's code and one more symbol (R30) -/

/-- No two coded phrases share a code: raw indices are below 16, the codes of DICT from 18 on (R22, R65). -/
theorem DictInv.codeOf_injective {d : Dict} {n : Nat} (h : DictInv d n) {p q : Phrase} {k : Nat}
    (hp : codeOf d p = some k) (hq : codeOf d q = some k) : p = q := by
  match p, q with
  | [], _ => cases hp
  | _, [] => cases hq
  | [a], [b] =>
    cases hp
    rw [BitVec.eq_of_toNat_eq (Option.some.inj hq)]
  | [a], _ :: _ :: _ =>
    cases hp
    have hcode := (h.codes a.toNat).mp ⟨_, hq⟩
    have hlt := a.isLt
    omega
  | _ :: _ :: _, [b] =>
    cases hq
    have hcode := (h.codes b.toNat).mp ⟨_, hp⟩
    have hlt := b.isLt
    omega
  | _ :: _ :: _, _ :: _ :: _ => exact h.injective _ _ k hp hq

/-- LOOKUP finds the entry whose key is the phrase. -/
theorem Dict.read_eq_find? (d : Dict) (key : Phrase) :
    Dict.read d key = (d.find? fun e => e.1 == key).map Prod.snd := by
  induction d with
  | nil => rfl
  | cons e rest ih =>
    obtain ⟨p, c⟩ := e
    by_cases hp : p = key
    · simp [Dict.read, hp]
    · simp [Dict.read, hp, ih]

/-- A key is that of code `k` and symbol `c` exactly when it is the phrase of code `k` extended by `c`. -/
theorem DictInv.code_and_last_iff {d : Dict} {n : Nat} (h : DictInv d n) {p key : Phrase} {k : Nat}
    (hk : codeOf d p = some k) (c : ColorIndex) :
    codeOf d key.dropLast = some k ∧ key.getLast? = some c ↔ key = p ++ [c] := by
  constructor
  · rintro ⟨hcode, hlast⟩
    rw [← h.codeOf_injective hcode hk]
    exact (List.dropLast_append_getLast? c hlast).symm
  · rintro rfl
    rw [List.dropLast_concat, List.getLast?_concat]
    exact ⟨hk, rfl⟩

/-- Settles O50: both forms look for the same entry. -/
theorem prefixCodeFormIsEquivalent : Obligations.PrefixCodeFormIsEquivalent := by
  intro s k h hk c
  have same : ∀ e : Phrase × Nat,
      (codeOf s.dict e.1.dropLast == some k && e.1.getLast? == some c) =
        (e.1 == s.phrase ++ [c]) := by
    intro e
    rw [Bool.eq_iff_iff, Bool.and_eq_true_iff, beq_iff_eq, beq_iff_eq, beq_iff_eq]
    exact h.dict.code_and_last_iff hk c
  rw [transRead, Dict.read_eq_find?, funext same]

end Sys2Proof.Machine

namespace Sys2Proof.Machine

/-! ### A host read (R40, R42, R47) -/

theorem readPort_out_eq_none {i : Nat} {s : State} (h : s.out.length ≤ i) :
    readPort (.out i) s = none := by
  rw [readPort, outRead, List.getElem?_eq_none h, Option.map_none]

theorem step_read_refused {p : Port} {rest : List HostInput} {s : State}
    (hin : s.input = .read p :: rest) (hv : readPort p s = none) :
    step s = .refused .outReadPastEnd := by
  rw [step, hin]
  show hostRead p (takeInput rest s) = _
  rw [hostRead, readPort_takeInput, hv]

/-- Settles O41: a port answers or it does not, and `step` follows it; under the invariant OUT is
empty in every state but Flushed. -/
theorem hostReadsReturnAndChangeNothing : Obligations.HostReadsReturnAndChangeNothing := by
  intro rest s
  refine ⟨fun p v hv hin => step_read hin hv, rfl, rfl, rfl, rfl, rfl, rfl, rfl, rfl,
    fun i b hb => ?_, fun i hi hin => step_read_refused hin (readPort_out_eq_none ?_)⟩
  · rw [readPort, outRead, hb, Option.map_some]
  · rcases hi with hlen | ⟨hinv, hs⟩
    · exact hlen
    · simp [hinv.output hs]

/-! ### The bytes and lengths of the file's blocks (R140 to R147) -/

theorem u16le_bytes (v : BitVec 16) :
    u16le v = [BitVec.ofNat 8 (v.toNat % 256), BitVec.ofNat 8 (v.toNat / 256)] := by
  have low : v.extractLsb' 0 8 = BitVec.ofNat 8 (v.toNat % 256) := by
    apply BitVec.eq_of_toNat_eq
    simp [BitVec.extractLsb'_toNat]
  have high : v.extractLsb' 8 8 = BitVec.ofNat 8 (v.toNat / 256) := by
    apply BitVec.eq_of_toNat_eq
    simp [BitVec.extractLsb'_toNat, Nat.shiftRight_eq_div_pow]
  rw [u16le, low, high]

/-- The 16 entries are laid end to end: the first `i` of them, then entry `i`. -/
theorem paletteEntry_prefix (gct : Vector Rgb 16) {i : Nat} (hi : i < 16) :
    (gct.toList.take i).flatMap rgbBytes ++ rgbBytes gct[i] <+: gctBytes gct := by
  have hlen : i < gct.toList.length := by simpa using hi
  have split : gct.toList.take i ++ [gct[i]] = gct.toList.take (i + 1) := by
    rw [← List.take_append_getElem hlen, Vector.getElem_toList]
  have h := (List.take_prefix (i + 1) gct.toList).flatMap rgbBytes
  rwa [← split, List.flatMap_append, List.flatMap_singleton] at h

theorem lsd_bytes (w h : BitVec 16) :
    lsd w h = [BitVec.ofNat 8 (w.toNat % 256), BitVec.ofNat 8 (w.toNat / 256),
      BitVec.ofNat 8 (h.toNat % 256), BitVec.ofNat 8 (h.toNat / 256), 0x83, 0x08, 0x00] := by
  rw [lsd, u16le_bytes, u16le_bytes]
  rfl

theorem gce_bytes (d : BitVec 16) :
    gce d = [0x21, 0xF9, 0x04, 0x01, BitVec.ofNat 8 (d.toNat / 10 % 256),
      BitVec.ofNat 8 (d.toNat / 10 / 256), 0x0F, 0x00] := by
  have hundredths : (delayHundredths d).toNat = d.toNat / 10 := BitVec.toNat_udiv
  rw [gce, u16le_bytes, hundredths]
  rfl

theorem imgDesc_bytes (w h : BitVec 16) :
    imgDesc w h = [0x2C, 0x00, 0x00, 0x00, 0x00, BitVec.ofNat 8 (w.toNat % 256),
      BitVec.ofNat 8 (w.toNat / 256), BitVec.ofNat 8 (h.toNat % 256),
      BitVec.ofNat 8 (h.toNat / 256), 0x00] := by
  rw [imgDesc, u16le_bytes w, u16le_bytes h]
  rfl

@[simp] theorem length_rgbBytes (e : Rgb) : (rgbBytes e).length = 3 := rfl

theorem length_flatMap_rgbBytes (entries : List Rgb) :
    (entries.flatMap rgbBytes).length = 3 * entries.length := by
  simp [Nat.mul_comm]

@[simp] theorem length_header : header.length = 6 := rfl

@[simp] theorem length_lsd (w h : BitVec 16) : (lsd w h).length = 7 := rfl

@[simp] theorem length_gce (d : BitVec 16) : (gce d).length = 8 := rfl

@[simp] theorem length_imgDesc (w h : BitVec 16) : (imgDesc w h).length = 10 := rfl

@[simp] theorem length_trailer : trailer.length = 1 := rfl

@[simp] theorem length_gctBytes (gct : Vector Rgb 16) : (gctBytes gct).length = 48 := by
  rw [gctBytes, length_flatMap_rgbBytes, Vector.length_toList]

/-- One length byte for every 255 bytes begun. -/
theorem length_dataBlocks {fuel : Nat} {data : List Byte} (h : data.length ≤ fuel) :
    (dataBlocks fuel data).length = data.length + (data.length + 254) / 255 := by
  induction fuel generalizing data with
  | zero => simp [List.length_eq_zero_iff.mp (Nat.le_zero.mp h), dataBlocks]
  | succ fuel ih =>
    cases data with
    | nil => rfl
    | cons b rest =>
      rw [List.length_cons] at h
      have hrest : ((b :: rest).drop subBlockMax).length = rest.length + 1 - 255 := by simp
      rw [dataBlocks, List.length_append, ih (by omega), hrest]
      simp only [List.length_cons, List.length_take, subBlockMax_eq]
      omega

@[simp] theorem length_subBlocks (data : List Byte) :
    (subBlocks data).length = data.length + (data.length + 254) / 255 + 1 := by
  rw [subBlocks, List.length_append, length_dataBlocks le_rfl]
  rfl

/-! ### The blocks of the file at their offsets (R48, R148) -/

/-- The image data's first byte counted as a block of its own (R145). -/
theorem assemble_blocks (gct : Vector Rgb 16) (w h d : BitVec 16) (data : List Byte) :
    assemble gct w h d data =
      header ++ lsd w h ++ gctBytes gct ++ gce d ++ imgDesc w h ++ [0x04] ++ subBlocks data ++
        trailer := by
  simp only [assemble, List.append_assoc]
  rfl

/-- What stands behind `n` bytes of a file is found at offset `n`. -/
theorem take_drop_of_prefix {file before block : List Byte} {n k : Nat}
    (h : before ++ block <+: file) (hn : before.length = n) (hk : block.length = k) :
    (file.drop n).take k = block := by
  obtain ⟨behind, rfl⟩ := h
  rw [List.append_assoc, List.drop_left' hn, List.take_left' hk]

theorem getElem?_of_prefix {file before : List Byte} {b : Byte} {n : Nat}
    (h : before ++ [b] <+: file) (hn : before.length = n) : file[n]? = some b := by
  obtain ⟨behind, rfl⟩ := h
  subst hn
  simp

/-- Settles O49: a block's offset is the length of the blocks before it. -/
theorem fileBlocksStandAtFixedOffsets : Obligations.FileBlocksStandAtFixedOffsets := by
  intro gct w h d data file size low high
  have hfile : file = _ := assemble_blocks gct w h d data
  have toSubBlocks := List.prefix_append
    (header ++ lsd w h ++ gctBytes gct ++ gce d ++ imgDesc w h ++ [0x04] ++ subBlocks data) trailer
  rw [← hfile] at toSubBlocks
  have toCodeSize := (List.prefix_append _ _).trans toSubBlocks
  have toImgDesc := (List.prefix_append _ _).trans toCodeSize
  have toGce := (List.prefix_append _ _).trans toImgDesc
  have toGct := (List.prefix_append _ _).trans toGce
  have toLsd := (List.prefix_append _ _).trans toGct
  have toHeader := (List.prefix_append _ _).trans toLsd
  refine ⟨?length, (List.prefix_iff_eq_take.mp toHeader).symm,
    (take_drop_of_prefix toLsd rfl rfl).trans (lsd_bytes w h),
    fun i hi => ?entry,
    (take_drop_of_prefix toGce (by simp) rfl).trans (gce_bytes d),
    (take_drop_of_prefix toImgDesc (by simp) rfl).trans (imgDesc_bytes w h),
    getElem?_of_prefix toCodeSize (by simp),
    take_drop_of_prefix toSubBlocks (by simp) (length_subBlocks data), ?trailer⟩
  case length =>
    simp only [hfile, size, List.length_append, length_header, length_lsd, length_gctBytes,
      length_gce, length_imgDesc, List.length_singleton, length_subBlocks, length_trailer]
    omega
  case entry =>
    have toEntry := ((List.prefix_append_right_inj _).mpr (paletteEntry_prefix gct hi)).trans toGct
    rw [← List.append_assoc] at toEntry
    have hbefore : ((gct.toList.take i).flatMap rgbBytes).length = 3 * i := by
      rw [length_flatMap_rgbBytes, List.length_take, Vector.length_toList, Nat.min_eq_left hi.le]
    exact take_drop_of_prefix toEntry (by rw [List.length_append, hbefore]; rfl) rfl
  case trailer =>
    rw [hfile]
    exact List.drop_left' (by simp [size]; omega)

end Sys2Proof.Machine

namespace Sys2Proof.Machine

/-! ### ENCODE's commands (R127, R132, R179) -/

/-- `ENCODE` expands to START, one SYM per symbol, FLUSH (R76, R179). -/
theorem expand_encode (symbols : List ColorIndex) :
    (Asm.encode (symbols.map BitVec.toNat)).expand = .start :: symbols.map .sym ++ [.flush] := by
  have same : Asm.symbolCommand ∘ BitVec.toNat = Instr.sym :=
    funext fun c => by simp [Asm.symbolCommand]
  rw [Asm.expand, List.map_map, same]

theorem supplies_symbols (symbols : List ColorIndex) :
    List.Forall₂ Supplies (symbols.map .sym) symbols := by
  rw [List.forall₂_map_left_iff, List.forall₂_same]
  exact fun c _ => .inl rfl

/-- FLUSH delivers the prospect's bytes and leaves NEXT_CODE (R125, R176). -/
theorem Encoding.flush {s : State} (h : Encoding s) :
    ∃ t, exec .flush s = .next t ∧ Successful t ∧ t.nextCode = s.nextCode ∧
      t.out = packedBytes (prospect s []).number (((prospect s []).bits + 7) / 8) := by
  obtain ⟨hf, hrun⟩ := h.ready
  obtain ⟨codes, hcodes, hwords⟩ := h.endCodes
  refine ⟨_, exec_of_performed hf h.five_le_curWidth
    (.flush hrun hcodes h.one_le_curWidth h.eoi_fits), ⟨?fault, ?flushed⟩, ?next, ?out⟩
  case fault => simpa using hf
  case flushed => simp
  case next => simp
  case out => rw [deliverStream_out, finish_afterEnd hwords]

/-- At the end of the input at most one data code is left, that of the buffered phrase; none is left only
when no symbol was supplied (R126, R132). -/
theorem Encoding.endCode {s : State} (h : Encoding s) :
    (prospect s []).endCode = s.nextCode + 1 ∨ (prospect s []).endCode = 18 := by
  rcases h.phrase with ⟨hp, hn⟩ | hc
  · exact .inr (by simp [prospect, codesLeft, hp, hn])
  · have hp : s.phrase ≠ [] := List.length_pos_iff.mp (hc.length_pos h.dict)
    exact .inl (by simp [prospect, codesLeft_buffered hp, dataCodes])

/-- An input that is not empty has a data code (R127). -/
theorem allDataCodes_length_pos {symbols : List ColorIndex} (h : symbols ≠ []) :
    1 ≤ (allDataCodes symbols).length := by
  cases symbols with
  | nil => exact absurd rfl h
  | cons c rest => exact dataCodes_length_pos ..

/-- Settles O52: START makes the prospect of the symbols, SYM by SYM leaves it, FLUSH delivers it. -/
theorem commandsComputeEncode : Obligations.CommandsComputeEncode := by
  intro symbols s hf _ hfits
  obtain ⟨u, hu, hEnc, hsame⟩ := start_supplyAll (supplies_symbols symbols) hf hfits
  obtain ⟨t, ht, hsucc, hnext, hout⟩ := hEnc.flush
  refine ⟨expand_encode symbols, t, ?run, hsucc, ?out, fun hne => ?next⟩
  case run =>
    rw [execAll_append _ hu, execAll_cons_next ht]
    rfl
  case out =>
    rw [hout, hsame]
    rfl
  case next =>
    have hpos := allDataCodes_length_pos hne
    have hlast : (prospect u []).endCode = 18 + (allDataCodes symbols).length :=
      congrArg Prospect.endCode hsame
    have hend := hEnc.endCode
    omega

end Sys2Proof.Machine

namespace Sys2Proof

/-! ### The word of every command, as a number (R60) -/

theorem field_toNat {n lo : Nat} (v : BitVec n) (hfit : lo + n ≤ 40) :
    (CmdWord.field v lo).toNat = v.toNat * 2 ^ lo := by
  have hv : v.toNat < 2 ^ 40 := v.isLt.trans_le (Nat.pow_le_pow_right (by decide) (by omega))
  have hword : v.toNat * 2 ^ lo < 2 ^ 40 :=
    calc v.toNat * 2 ^ lo < 2 ^ n * 2 ^ lo := Nat.mul_lt_mul_of_pos_right v.isLt (by positivity)
      _ = 2 ^ (lo + n) := by rw [Nat.add_comm, Nat.pow_add]
      _ ≤ 2 ^ 40 := Nat.pow_le_pow_right (by decide) hfit
  rw [CmdWord.field, BitVec.toNat_shiftLeft, BitVec.toNat_setWidth, Nat.mod_eq_of_lt hv,
    Nat.shiftLeft_eq, Nat.mod_eq_of_lt hword]

/-- A field placed below nothing but zero bits adds its value at its place. -/
theorem or_field_toNat {n lo number : Nat} {w : CmdWord} (hw : w.toNat = number) (v : BitVec n)
    (hfit : lo + n ≤ 40) (free : number % 2 ^ (lo + n) = 0) :
    (w ||| CmdWord.field v lo).toNat = number + v.toNat * 2 ^ lo := by
  have hlt : v.toNat * 2 ^ lo < 2 ^ (lo + n) := by
    rw [Nat.add_comm, Nat.pow_add]
    exact Nat.mul_lt_mul_of_pos_right v.isLt (by positivity)
  obtain ⟨q, rfl⟩ := Nat.dvd_of_mod_eq_zero free
  rw [BitVec.toNat_or, field_toNat v hfit, hw, Nat.two_pow_add_eq_or_of_lt hlt]

theorem opcode_toNat (op : Nat) (h : op < 2 ^ 8) :
    (CmdWord.field (BitVec.ofNat 8 op) 32).toNat = op * 2 ^ 32 := by
  rw [field_toNat _ (by decide), BitVec.toNat_ofNat, Nat.mod_eq_of_lt h]

theorem encode_cfgdim_toNat (w h : BitVec 16) :
    (encode (.cfgdim w h)).toNat = 0x01 * 2 ^ 32 + h.toNat * 2 ^ 16 + w.toNat := by
  have height := or_field_toNat (lo := 16) (opcode_toNat 0x01 (by decide)) h (by decide) (by decide)
  have width := or_field_toNat (lo := 0) height w (by decide) (by omega)
  rw [encode, width, Nat.pow_zero, Nat.mul_one]

theorem encode_cfgdly_toNat (d : BitVec 16) :
    (encode (.cfgdly d)).toNat = 0x02 * 2 ^ 32 + d.toNat := by
  have delay := or_field_toNat (lo := 0) (opcode_toNat 0x02 (by decide)) d (by decide) (by decide)
  rw [encode, delay, Nat.pow_zero, Nat.mul_one]

theorem encode_start_toNat : (encode .start).toNat = 0x03 * 2 ^ 32 := opcode_toNat 0x03 (by decide)

theorem encode_pix_toNat (r g b a : Byte) : (encode (.pix r g b a)).toNat =
    0x04 * 2 ^ 32 + r.toNat * 2 ^ 24 + g.toNat * 2 ^ 16 + b.toNat * 2 ^ 8 + a.toNat := by
  have red := or_field_toNat (lo := 24) (opcode_toNat 0x04 (by decide)) r (by decide) (by decide)
  have green := or_field_toNat (lo := 16) red g (by decide) (by omega)
  have blue := or_field_toNat (lo := 8) green b (by decide) (by omega)
  have opacity := or_field_toNat (lo := 0) blue a (by decide) (by omega)
  rw [encode, opacity, Nat.pow_zero, Nat.mul_one]

theorem encode_sym_toNat (c : ColorIndex) : (encode (.sym c)).toNat = 0x05 * 2 ^ 32 + c.toNat := by
  have symbol := or_field_toNat (lo := 0) (opcode_toNat 0x05 (by decide)) c (by decide) (by decide)
  rw [encode, symbol, Nat.pow_zero, Nat.mul_one]

theorem encode_flush_toNat : (encode .flush).toNat = 0x06 * 2 ^ 32 := opcode_toNat 0x06 (by decide)

theorem encode_save_toNat : (encode .save).toNat = 0x07 * 2 ^ 32 := opcode_toNat 0x07 (by decide)

/-- Settles O18, command by command: the fields are added from the opcode downward, each below zero bits. -/
theorem wordsPlaceFieldsByFormat : Obligations.WordsPlaceFieldsByFormat :=
  ⟨encode_cfgdim_toNat, encode_cfgdly_toNat, encode_start_toNat, encode_pix_toNat, encode_sym_toNat,
    encode_flush_toNat, encode_save_toNat⟩

/-! ### The fields a word carries, as numbers (R60) -/

theorem lowHalf_toNat (w : CmdWord) : w.lowHalf.toNat = w.toNat % 2 ^ 16 := by
  rw [CmdWord.lowHalf, BitVec.extractLsb'_toNat, Nat.shiftRight_zero]

theorem highHalf_toNat (w : CmdWord) : w.highHalf.toNat = w.toNat / 2 ^ 16 % 2 ^ 16 := by
  rw [CmdWord.highHalf, BitVec.extractLsb'_toNat, Nat.shiftRight_eq_div_pow]

theorem operandByte_toNat (w : CmdWord) (k : Nat) :
    (w.operandByte k).toNat = w.toNat / 2 ^ (8 * k) % 2 ^ 8 := by
  rw [CmdWord.operandByte, BitVec.extractLsb'_toNat, Nat.shiftRight_eq_div_pow]

theorem symbolField_toNat (w : CmdWord) : w.symbolField.toNat = w.toNat % 2 ^ 4 := by
  rw [CmdWord.symbolField, BitVec.extractLsb'_toNat, Nat.shiftRight_zero]

/-- The row of a command reads its operands back from its word. -/
theorem row_operands_encode (i : Instr) : i.row.operands (encode i) = i := by
  cases i with
  | cfgdim w h =>
    have hword := encode_cfgdim_toNat w h
    refine congrArg₂ Instr.cfgdim (BitVec.eq_of_toNat_eq ?_) (BitVec.eq_of_toNat_eq ?_)
    · rw [lowHalf_toNat]; omega
    · rw [highHalf_toNat]; omega
  | cfgdly d =>
    have hword := encode_cfgdly_toNat d
    refine congrArg Instr.cfgdly (BitVec.eq_of_toNat_eq ?_)
    rw [lowHalf_toNat]; omega
  | start => rfl
  | pix r g b a =>
    have hword := encode_pix_toNat r g b a
    have hr : (encode (.pix r g b a)).operandByte 3 = r := by
      apply BitVec.eq_of_toNat_eq; rw [operandByte_toNat]; omega
    have hg : (encode (.pix r g b a)).operandByte 2 = g := by
      apply BitVec.eq_of_toNat_eq; rw [operandByte_toNat]; omega
    have hb : (encode (.pix r g b a)).operandByte 1 = b := by
      apply BitVec.eq_of_toNat_eq; rw [operandByte_toNat]; omega
    have ha : (encode (.pix r g b a)).operandByte 0 = a := by
      apply BitVec.eq_of_toNat_eq; rw [operandByte_toNat]; omega
    simp only [Instr.row, rowPix, hr, hg, hb, ha]
  | sym c =>
    have hword := encode_sym_toNat c
    refine congrArg Instr.sym (BitVec.eq_of_toNat_eq ?_)
    rw [symbolField_toNat]; omega
  | flush => rfl
  | save => rfl

/-- A word that a row accepts is the word of the command the row reads from it: the mask covers every bit
that is no operand's. -/
theorem encode_operands {r : Row} {w : CmdWord} (hr : r ∈ opcodeTable) (ha : r.accepts w = true) :
    encode (r.operands w) = w := by
  apply BitVec.eq_of_toNat_eq
  simp only [opcodeTable, List.mem_cons, List.not_mem_nil, or_false] at hr
  rcases hr with rfl | rfl | rfl | rfl | rfl | rfl | rfl
  · have hop := (rowCfgdim_accepts w).mp ha
    rw [rowCfgdim, encode_cfgdim_toNat, lowHalf_toNat, highHalf_toNat]
    omega
  · have hop := (rowCfgdly_accepts w).mp ha
    rw [rowCfgdly, encode_cfgdly_toNat, lowHalf_toNat]
    omega
  · have hop := (rowStart_accepts w).mp ha
    rw [rowStart, encode_start_toNat]
    omega
  · have hop := (rowPix_accepts w).mp ha
    rw [rowPix, encode_pix_toNat, operandByte_toNat, operandByte_toNat, operandByte_toNat,
      operandByte_toNat]
    omega
  · have hop := (rowSym_accepts w).mp ha
    rw [rowSym, encode_sym_toNat, symbolField_toNat]
    omega
  · have hop := (rowFlush_accepts w).mp ha
    rw [rowFlush, encode_flush_toNat]
    omega
  · have hop := (rowSave_accepts w).mp ha
    rw [rowSave, encode_save_toNat]
    omega

/-! ### The decoder (R61, R63) -/

/-- Every mask covers the opcode, so a word has the opcode of the row that accepts it. -/
theorem opcode_of_accepts {r : Row} {w : CmdWord} (hr : r ∈ opcodeTable) (ha : r.accepts w = true) :
    w.toNat / 2 ^ 32 = r.pattern.toNat / 2 ^ 32 := by
  simp only [opcodeTable, List.mem_cons, List.not_mem_nil, or_false] at hr
  rcases hr with rfl | rfl | rfl | rfl | rfl | rfl | rfl
  · exact (rowCfgdim_accepts w).mp ha
  · have hop := (rowCfgdly_accepts w).mp ha
    change w.toNat / 2 ^ 32 = 2
    omega
  · have hop := (rowStart_accepts w).mp ha
    change w.toNat / 2 ^ 32 = 3
    omega
  · exact (rowPix_accepts w).mp ha
  · have hop := (rowSym_accepts w).mp ha
    change w.toNat / 2 ^ 32 = 5
    omega
  · have hop := (rowFlush_accepts w).mp ha
    change w.toNat / 2 ^ 32 = 6
    omega
  · have hop := (rowSave_accepts w).mp ha
    change w.toNat / 2 ^ 32 = 7
    omega

theorem opcodes_differ :
    opcodeTable.Pairwise fun r q => r.pattern.toNat / 2 ^ 32 ≠ q.pattern.toNat / 2 ^ 32 := by
  decide

/-- Settles O21: two rows that accept one word have its opcode, and no two rows have one opcode. -/
theorem noWordMatchesTwoRows : Obligations.NoWordMatchesTwoRows :=
  opcodes_differ.imp_of_mem fun hr hq differ _ ⟨har, haq⟩ =>
    differ ((opcode_of_accepts hr har).symm.trans (opcode_of_accepts hq haq))

/-- Two rows that accept one word are one row. -/
theorem eq_of_accepts {r q : Row} {w : CmdWord} (hr : r ∈ opcodeTable) (hq : q ∈ opcodeTable)
    (har : r.accepts w = true) (haq : q.accepts w = true) : r = q := by
  by_contra hne
  have : Std.Symm fun r q : Row => ∀ w : CmdWord, ¬(r.accepts w = true ∧ q.accepts w = true) :=
    ⟨fun _ _ h w both => h w both.symm⟩
  exact noWordMatchesTwoRows.forall hr hq hne w ⟨har, haq⟩

/-- What a word decodes to is what the row that accepts it reads from it. -/
theorem decode_eq_some_iff {w : CmdWord} {i : Instr} :
    decode w = some i ↔ ∃ r ∈ opcodeTable, r.accepts w = true ∧ r.operands w = i := by
  rw [decode, Option.map_eq_some_iff]
  constructor
  · rintro ⟨r, hfind, hi⟩
    have ha : r.accepts w = true := List.find?_some (p := fun r : Row => r.accepts w) hfind
    exact ⟨r, List.mem_of_find?_eq_some hfind, ha, hi⟩
  · rintro ⟨r, hr, ha, hi⟩
    have hsome : (opcodeTable.find? fun r => r.accepts w).isSome = true :=
      List.find?_isSome.mpr ⟨r, hr, ha⟩
    obtain ⟨q, hfind⟩ := Option.isSome_iff_exists.mp hsome
    have haq : q.accepts w = true := List.find?_some (p := fun r : Row => r.accepts w) hfind
    have hq : q = r := eq_of_accepts (List.mem_of_find?_eq_some hfind) hr haq ha
    exact ⟨r, hq ▸ hfind, hi⟩

theorem decode_eq_none_iff {w : CmdWord} :
    decode w = none ↔ ∀ r ∈ opcodeTable, ¬r.accepts w = true := by
  rw [decode, Option.map_eq_none_iff, List.find?_eq_none]

/-- The word of a command is accepted by the command's own row (R60, R61). -/
theorem row_accepts_encode (i : Instr) : i.row ∈ opcodeTable ∧ i.row.accepts (encode i) = true := by
  cases i with
  | cfgdim w h => exact (Laws.EncodesInRow.cfgdim w h).2
  | cfgdly d => exact (Laws.EncodesInRow.cfgdly d).2
  | start => exact Laws.EncodesInRow.start.2
  | pix r g b a => exact (Laws.EncodesInRow.pix r g b a).2
  | sym c => exact (Laws.EncodesInRow.sym c).2
  | flush => exact Laws.EncodesInRow.flush.2
  | save => exact Laws.EncodesInRow.save.2

/-- Settles O19: the command's own row accepts the word and reads the operands back. -/
theorem decodeOfEncodeIsTheCommand : Obligations.DecodeOfEncodeIsTheCommand := by
  intro i _
  obtain ⟨hrow, haccepts⟩ := row_accepts_encode i
  exact decode_eq_some_iff.mpr ⟨i.row, hrow, haccepts, row_operands_encode i⟩

/-- Settles O20: whichever row accepts the word, no bit of it is lost. -/
theorem encodeOfDecodeIsTheWord : Obligations.EncodeOfDecodeIsTheWord := by
  intro w i hd
  obtain ⟨r, hr, ha, rfl⟩ := decode_eq_some_iff.mp hd
  exact encode_operands hr ha

/-- A word decodes to nothing when it disagrees with every row's pattern where the row's mask is set. -/
theorem decode_eq_none_iff_bits {w : CmdWord} :
    decode w = none ↔ w.toNat / 2 ^ 32 ≠ 1 ∧ w.toNat / 2 ^ 16 ≠ 2 * 2 ^ 16 ∧
      w.toNat / 2 ^ 0 ≠ 3 * 2 ^ 32 ∧ w.toNat / 2 ^ 32 ≠ 4 ∧ w.toNat / 2 ^ 4 ≠ 5 * 2 ^ 28 ∧
      w.toNat / 2 ^ 0 ≠ 6 * 2 ^ 32 ∧ w.toNat / 2 ^ 0 ≠ 7 * 2 ^ 32 := by
  rw [decode_eq_none_iff]
  simp only [opcodeTable, List.forall_mem_cons, rowCfgdim_accepts, rowCfgdly_accepts,
    rowStart_accepts, rowPix_accepts, rowSym_accepts, rowFlush_accepts, rowSave_accepts,
    List.not_mem_nil, false_imp_iff, implies_true, and_true, ne_eq]

/-- Settles O22: a word of a row's opcode is refused for the must-be-zero bits of that opcode alone. -/
theorem illegalWordsAreThese : Obligations.IllegalWordsAreThese := by
  intro w
  rw [decode_eq_none_iff_bits, Machine.IllegalWord]
  constructor
  · intro hno
    omega
  · intro hillegal
    omega

/-- Settles O23, by running the decoder on each word. -/
theorem sampleWordsDecode : Obligations.SampleWordsDecode :=
  ⟨by decide, by decide, by decide, by decide, by decide, by decide, by decide, by decide, by decide,
    by decide, by decide⟩

end Sys2Proof

namespace Sys2Proof.Machine

theorem illegalCommand_unfaulted {w : CmdWord} {s : State} (hf : s.fault = 0) :
    illegalCommand w s = .next (raise .illegalCommand w s) :=
  if_neg (not_not.mpr hf)

/-- Settles O17: the word decodes to nothing, and what matches no row raises IllegalCommand whatever
LZ_STATE is. -/
theorem illegalWordFaultsInEveryState : Obligations.IllegalWordFaultsInEveryState := by
  intro w rest s hillegal hf hin
  have hd : decode w = none := (illegalWordsAreThese w).mpr hillegal
  refine ⟨hd, ?_⟩
  rw [step_command hin, presentWord_undecoded hd]
  exact illegalCommand_unfaulted hf

/-! ### The stream as one number and as bytes (R68) -/

/-- Every word of the stream fits its width (R105). -/
abbrev WordsFit (words : List (Nat × Nat)) : Prop := ∀ word ∈ words, word.1 < 2 ^ word.2

theorem streamNumber_eq_mul (offset : Nat) (words : List (Nat × Nat)) :
    streamNumber offset words = streamNumber 0 words * 2 ^ offset := by
  induction words generalizing offset with
  | nil => simp [streamNumber]
  | cons word rest ih =>
    rw [streamNumber, streamNumber, ih (offset + word.2), ih (0 + word.2), Nat.shiftLeft_eq,
      Nat.shiftLeft_eq]
    ring

/-- The first word is the low bits, the rest stands above it. -/
theorem streamNumber_cons (word : Nat × Nat) (words : List (Nat × Nat)) :
    streamNumber 0 (word :: words) = word.1 + streamNumber 0 words * 2 ^ word.2 := by
  rw [streamNumber, Nat.shiftLeft_zero, streamNumber_eq_mul, Nat.zero_add]

theorem streamNumber_lt {words : List (Nat × Nat)} (fit : WordsFit words) :
    streamNumber 0 words < 2 ^ streamBits words := by
  induction words with
  | nil => decide
  | cons word rest ih =>
    obtain ⟨hword, hrest⟩ := List.forall_mem_cons.mp fit
    rw [streamNumber_cons, streamBits_cons, Nat.pow_add]
    calc word.1 + streamNumber 0 rest * 2 ^ word.2
        < (streamNumber 0 rest + 1) * 2 ^ word.2 := by rw [Nat.succ_mul]; omega
      _ ≤ 2 ^ streamBits rest * 2 ^ word.2 := Nat.mul_le_mul_right _ (ih hrest)
      _ = 2 ^ word.2 * 2 ^ streamBits rest := Nat.mul_comm _ _

theorem streamBytes_eq (words : List (Nat × Nat)) :
    streamBytes words = packedBytes (streamNumber 0 words) ((streamBits words + 7) / 8) := rfl

theorem packedBytes_succ (number n : Nat) :
    packedBytes number (n + 1) = BitVec.ofNat 8 number :: packedBytes (number >>> 8) n := by
  rw [packedBytes, List.range_succ_eq_map, List.map_cons, List.map_map, packedBytes]
  congr 1
  refine List.map_congr_left fun j _ => ?_
  rw [Function.comp_apply, ← Nat.shiftRight_add]
  congr 2
  omega

/-- Bytes are read off in two goes: what is left of the number after the first is its high part. -/
theorem packedBytes_add (number m n : Nat) :
    packedBytes number (m + n) = packedBytes number m ++ packedBytes (number >>> (8 * m)) n := by
  rw [packedBytes, List.range_add, List.map_append, List.map_map, packedBytes, packedBytes]
  congr 1
  refine List.map_congr_left fun j _ => ?_
  rw [Function.comp_apply, ← Nat.shiftRight_add, Nat.mul_add]

theorem add_mul_shiftRight (low high : Nat) {m n : Nat} (h : m ≤ n) :
    (low + high * 2 ^ n) >>> m = low >>> m + high * 2 ^ (n - m) := by
  rw [Nat.shiftRight_eq_div_pow, Nat.shiftRight_eq_div_pow, ← Nat.sub_add_cancel h, Nat.pow_add,
    ← Nat.mul_assoc, Nat.add_mul_div_right _ _ (by positivity), Nat.add_sub_cancel]

/-- What stands above the bytes read does not show in them. -/
theorem packedBytes_add_mul (low high : Nat) {n bits : Nat} (h : 8 * n ≤ bits) :
    packedBytes (low + high * 2 ^ bits) n = packedBytes low n := by
  induction n generalizing low bits with
  | zero => rfl
  | succ n ih =>
    have hbyte : BitVec.ofNat 8 (low + high * 2 ^ bits) = BitVec.ofNat 8 low := by
      apply BitVec.eq_of_toNat_eq
      rw [BitVec.toNat_ofNat, BitVec.toNat_ofNat, ← Nat.sub_add_cancel (show 8 ≤ bits by omega),
        Nat.pow_add, ← Nat.mul_assoc, Nat.add_mul_mod_self_right]
    rw [packedBytes_succ, packedBytes_succ, hbyte, add_mul_shiftRight _ _ (by omega),
      ih _ (by omega)]

/-- The bytes as a number again. -/
theorem numberOfBytes_packedBytes (number n : Nat) :
    numberOfBytes (packedBytes number n) = number % 2 ^ (8 * n) := by
  induction n generalizing number with
  | zero => simp [packedBytes, numberOfBytes, Nat.mod_one]
  | succ n ih =>
    rw [packedBytes_succ, numberOfBytes, ih, BitVec.toNat_ofNat, Nat.shiftRight_eq_div_pow,
      Nat.mul_succ, Nat.add_comm (8 * n), Nat.pow_add, Nat.mod_mul]

/-- The reader finds the number of the stream (R68; 95_test_vectors.md section 5). -/
theorem numberOfBytes_streamBytes {words : List (Nat × Nat)} (fit : WordsFit words) :
    numberOfBytes (streamBytes words) = streamNumber 0 words := by
  have hbits : streamBits words ≤ 8 * ((streamBits words + 7) / 8) := by omega
  rw [streamBytes_eq, numberOfBytes_packedBytes, Nat.mod_eq_of_lt]
  exact (streamNumber_lt fit).trans_le (Nat.pow_le_pow_right (by decide) hbits)

theorem length_streamBytes (words : List (Nat × Nat)) :
    (streamBytes words).length = (streamBits words + 7) / 8 := by
  rw [streamBytes, List.length_map, List.length_range]

/-! ### The streaming packer (R109) -/

/-- At FINISH the residue is one byte, or there is none. -/
theorem Streamer.finish_eq {st : Streamer} (hcount : st.count < 8) :
    st.finish = st.bytes ++ packedBytes st.residue ((st.count + 7) / 8) := by
  by_cases h : st.count = 0
  · simp [Streamer.finish, h, packedBytes]
  · have hone : (st.count + 7) / 8 = 1 := by omega
    rw [Streamer.finish, if_neg h, hone, packedBytes_succ]
    rfl

/-- Whatever has been emitted, what follows is the bytes of the residue with the words to come above it. -/
theorem Streamer.finish_foldl_push (words : List (Nat × Nat)) {st : Streamer} (hcount : st.count < 8) :
    (words.foldl Streamer.push st).finish = st.bytes ++
      packedBytes (st.residue + streamNumber 0 words * 2 ^ st.count)
        ((st.count + streamBits words + 7) / 8) := by
  induction words generalizing st with
  | nil => simpa [streamNumber, streamBits] using Streamer.finish_eq hcount
  | cons word rest ih =>
    obtain ⟨value, width⟩ := word
    have hnumber : st.residue + streamNumber 0 ((value, width) :: rest) * 2 ^ st.count =
        st.residue + value <<< st.count + streamNumber 0 rest * 2 ^ (st.count + width) := by
      rw [streamNumber_cons, Nat.shiftLeft_eq]
      ring
    have hlen : (st.count + streamBits ((value, width) :: rest) + 7) / 8 =
        (st.count + width) / 8 + ((st.count + width) % 8 + streamBits rest + 7) / 8 := by
      rw [streamBits_cons]
      omega
    have hemitted : 8 * ((st.count + width) / 8) ≤ st.count + width := by omega
    have hkept : st.count + width - 8 * ((st.count + width) / 8) = (st.count + width) % 8 := by omega
    rw [List.foldl_cons, ih (Nat.mod_lt _ (by decide)), hnumber, hlen, packedBytes_add,
      packedBytes_add_mul _ _ hemitted, add_mul_shiftRight _ _ hemitted, hkept, ← List.append_assoc]
    rfl

/-- Settles O51: from the empty residue the bytes that follow are those of the whole stream. -/
theorem streamingPackerIsEquivalent : Obligations.StreamingPackerIsEquivalent := by
  intro words _
  rw [Streamer.finish_foldl_push words (by decide), streamBytes_eq]
  simp [Streamer.start]

/-! ### The chunks of SUBBLOCKS (R73, R146) -/

/-- The bytes the turns of SUBBLOCKS' loop take, without their length bytes. -/
def payloadChunks : Nat → List Byte → List (List Byte)
  | 0, _ => []
  | _ + 1, [] => []
  | fuel + 1, b :: rest =>
    (b :: rest).take subBlockMax :: payloadChunks fuel ((b :: rest).drop subBlockMax)

/-- Every turn writes its chunk behind the chunk's length. -/
theorem dataBlocks_eq (fuel : Nat) (data : List Byte) :
    dataBlocks fuel data =
      (payloadChunks fuel data).flatMap fun c => BitVec.ofNat 8 c.length :: c := by
  induction fuel, data using payloadChunks.induct with
  | case1 data => rfl
  | case2 fuel => rfl
  | case3 fuel b rest ih =>
    rw [dataBlocks, payloadChunks, List.flatMap_cons, ih, List.length_take]

theorem flatten_payloadChunks {fuel : Nat} {data : List Byte} (h : data.length ≤ fuel) :
    (payloadChunks fuel data).flatten = data := by
  induction fuel, data using payloadChunks.induct with
  | case1 data => rw [List.length_eq_zero_iff.mp (Nat.le_zero.mp h)]; rfl
  | case2 fuel => rfl
  | case3 fuel b rest ih =>
    have hrest : ((b :: rest).drop subBlockMax).length ≤ fuel := by
      rw [List.length_drop, subBlockMax_eq]
      omega
    rw [payloadChunks, List.flatten_cons, ih hrest, List.take_append_drop]

theorem length_payloadChunks {fuel : Nat} {data : List Byte} (h : data.length ≤ fuel) :
    (payloadChunks fuel data).length = (data.length + 254) / 255 := by
  induction fuel, data using payloadChunks.induct with
  | case1 data => rw [List.length_eq_zero_iff.mp (Nat.le_zero.mp h)]; rfl
  | case2 fuel => rfl
  | case3 fuel b rest ih =>
    have hrest : ((b :: rest).drop subBlockMax).length = (b :: rest).length - 255 :=
      List.length_drop
    rw [List.length_cons] at h hrest
    rw [payloadChunks, List.length_cons, ih (by omega), hrest, List.length_cons]
    omega

theorem payloadChunks_sizes (fuel : Nat) (data : List Byte) :
    ∀ c ∈ payloadChunks fuel data, 1 ≤ c.length ∧ c.length ≤ 255 := by
  induction fuel, data using payloadChunks.induct with
  | case1 data => exact fun c hc => absurd hc List.not_mem_nil
  | case2 fuel => exact fun c hc => absurd hc List.not_mem_nil
  | case3 fuel b rest ih =>
    refine List.forall_mem_cons.mpr ⟨?_, ih⟩
    rw [List.length_take, List.length_cons, subBlockMax_eq]
    omega

/-- A turn that leaves bytes for another has taken 255. -/
theorem payloadChunks_full (fuel : Nat) (data : List Byte) :
    ∀ c ∈ (payloadChunks fuel data).dropLast, c.length = 255 := by
  induction fuel, data using payloadChunks.induct with
  | case1 data => exact fun c hc => absurd hc List.not_mem_nil
  | case2 fuel => exact fun c hc => absurd hc List.not_mem_nil
  | case3 fuel b rest ih =>
    rw [payloadChunks]
    by_cases hlast : payloadChunks fuel ((b :: rest).drop subBlockMax) = []
    · rw [hlast]
      exact fun c hc => absurd hc List.not_mem_nil
    · have hlen : subBlockMax < (b :: rest).length := by
        by_contra hle
        rw [List.drop_eq_nil_of_le (Nat.not_lt.mp hle)] at hlast
        cases fuel <;> exact hlast rfl
      rw [List.dropLast_cons_of_ne_nil hlast]
      exact List.forall_mem_cons.mpr ⟨List.length_take_of_le hlen.le, ih⟩

/-- Settles O48: the chunks are those the loop takes, and it has turns enough for all of them. -/
theorem subBlocksCarryThePayload : Obligations.SubBlocksCarryThePayload := by
  intro data
  refine ⟨payloadChunks data.length data, flatten_payloadChunks le_rfl, length_payloadChunks le_rfl,
    payloadChunks_sizes _ _, payloadChunks_full _ _, ?_⟩
  rw [subBlocks, dataBlocks_eq]

/-! ### What the data codes are, under the dictionary's invariant (R121 to R125)

`dataCodes` as a relation, with the facts each branch rests on: what is true of the codes is then proved
branch by branch. -/

/-- With dictionary `d`, `next` the next code to assign and `phrase` buffered, the symbols make these data
codes. -/
inductive Emits : Dict → Nat → Phrase → List ColorIndex → List Nat → Prop where
  | last {d : Dict} {next code : Nat} {phrase : Phrase} (inv : DictInv d next)
    (isCode : codeOf d phrase = some code) : Emits d next phrase [] [code]
  | known {d : Dict} {next : Nat} {phrase : Phrase} {c : ColorIndex} {rest : List ColorIndex}
    {codes : List Nat} (buffered : phrase ≠ []) (more : Emits d next (phrase ++ [c]) rest codes) :
    Emits d next phrase (c :: rest) codes
  | mismatch {d : Dict} {next code : Nat} {phrase : Phrase} {c : ColorIndex}
    {rest : List ColorIndex} {codes : List Nat} (inv : DictInv d next)
    (isCode : codeOf d phrase = some code) (absent : Dict.read d (phrase ++ [c]) = none)
    (more : Emits (Dict.write d (phrase ++ [c]) next) (next + 1) [c] rest codes) :
    Emits d next phrase (c :: rest) (code :: codes)

theorem emits_dataCodes {d : Dict} {next : Nat} {phrase : Phrase} (symbols : List ColorIndex)
    (inv : DictInv d next) (coded : Coded d phrase) :
    Emits d next phrase symbols (dataCodes d next phrase symbols) := by
  induction symbols generalizing d next phrase with
  | nil =>
    obtain ⟨code, isCode⟩ := codeOf_isSome (List.length_pos_iff.mp (coded.length_pos inv)) coded
    rw [dataCodes, isCode]
    exact .last inv isCode
  | cons c rest ih =>
    have buffered : phrase ≠ [] := List.length_pos_iff.mp (coded.length_pos inv)
    cases hr : Dict.read d (phrase ++ [c]) with
    | some k =>
      rw [dataCodes, if_pos (by simp [lookup, extend, hr])]
      exact .known buffered (ih inv (.inr ⟨k, hr⟩))
    | none =>
      obtain ⟨code, isCode⟩ := codeOf_isSome buffered coded
      rw [dataCodes, if_neg (by simp [lookup, extend, hr]), isCode]
      exact .mismatch inv isCode hr (ih (inv.write coded hr) (.inl rfl))

theorem emits_allDataCodes (c : ColorIndex) (rest : List ColorIndex) :
    Emits [] 18 [c] rest (allDataCodes (c :: rest)) :=
  emits_dataCodes rest .nil (.inl rfl)

/-- A code of the dictionary fits the width of the data code pushed when NEXT_CODE is `next` (R67). -/
theorem DictInv.codeOf_fits {d : Dict} {next code : Nat} {phrase : Phrase} (inv : DictInv d next)
    (isCode : codeOf d phrase = some code) : code < 2 ^ dataWidth (next - 17) := by
  rw [dataWidth_sub inv.first_le]
  calc code < next := inv.codeOf_lt isCode
    _ < 2 ^ bitlen next := lt_two_pow_bitlen next
    _ ≤ 2 ^ max 5 (bitlen next) := Nat.pow_le_pow_right (by decide) (le_max_right ..)

/-- EOI is no phrase's code: raw indices are below 16, the codes of DICT from 18 on (R65). -/
theorem DictInv.codeOf_ne_eoi {d : Dict} {next code : Nat} {phrase : Phrase} (inv : DictInv d next)
    (isCode : codeOf d phrase = some code) : code ≠ 17 := by
  match phrase with
  | [] => cases isCode
  | [c] =>
    have hlt := c.isLt
    cases isCode
    omega
  | _ :: _ :: _ =>
    have hcode := (inv.codes code).mp ⟨_, isCode⟩
    omega

theorem Emits.wordsFit {d : Dict} {next : Nat} {phrase : Phrase} {symbols : List ColorIndex}
    {codes : List Nat} (h : Emits d next phrase symbols codes) :
    WordsFit (withWidths (next - 17) codes) := by
  induction h with
  | last inv isCode => exact List.forall_mem_cons.mpr ⟨inv.codeOf_fits isCode, List.forall_mem_nil _⟩
  | known _ _ ih => exact ih
  | @mismatch _ next _ _ _ _ _ inv isCode absent more ih =>
    have hn := inv.first_le
    rw [show next + 1 - 17 = next - 17 + 1 by omega] at ih
    exact List.forall_mem_cons.mpr ⟨inv.codeOf_fits isCode, ih⟩

theorem Emits.ne_eoi {d : Dict} {next : Nat} {phrase : Phrase} {symbols : List ColorIndex}
    {codes : List Nat} (h : Emits d next phrase symbols codes) : ∀ code ∈ codes, code ≠ 17 := by
  induction h with
  | last inv isCode =>
    exact List.forall_mem_cons.mpr ⟨inv.codeOf_ne_eoi isCode, List.forall_mem_nil _⟩
  | known _ _ ih => exact ih
  | mismatch inv isCode _ _ ih => exact List.forall_mem_cons.mpr ⟨inv.codeOf_ne_eoi isCode, ih⟩

/-! ### Reading the first word of a stream off its number (R68) -/

theorem streamNumber_cons_mod {c w : Nat} (words : List (Nat × Nat)) (fit : c < 2 ^ w) :
    streamNumber 0 ((c, w) :: words) % 2 ^ w = c := by
  rw [streamNumber_cons, Nat.add_mul_mod_self_right, Nat.mod_eq_of_lt fit]

theorem streamNumber_cons_shiftRight {c w : Nat} (words : List (Nat × Nat)) (fit : c < 2 ^ w) :
    streamNumber 0 ((c, w) :: words) >>> w = streamNumber 0 words := by
  rw [streamNumber_cons, add_mul_shiftRight _ _ le_rfl, Nat.shiftRight_eq_zero _ _ fit, Nat.sub_self,
    Nat.pow_zero, Nat.mul_one, Nat.zero_add]

/-! ### The reader over the codes alone (95_test_vectors.md section 5) -/

/-- The reader's table after it has read a code as `e`: its first code adds no entry. -/
def readerTable (table : List (Nat × Phrase)) (next : Nat) (prev e : Phrase) : List (Nat × Phrase) :=
  if prev = [] then table else (next, prev ++ e.take 1) :: table

/-- The code of the reader's next entry after it has read a code. -/
def readerNext (next : Nat) (prev : Phrase) : Nat := if prev = [] then next else next + 1

/-- What the reader makes of a list of data codes, wherever they come from. -/
def readCodes (table : List (Nat × Phrase)) (next : Nat) (prev : Phrase) :
    List Nat → Option (List ColorIndex)
  | [] => some []
  | c :: rest =>
    (readerExpand table next prev c).bind fun e =>
      (readCodes (readerTable table next prev e) (readerNext next prev) e rest).map (e ++ ·)

theorem readerLoop_eoi {n fuel pos k next : Nat} {table : List (Nat × Phrase)} {prev : Phrase}
    (hc : (n >>> pos) % 2 ^ dataWidth k = 17) :
    readerLoop n (fuel + 1) pos k table next prev = some ([], pos + dataWidth k) := by
  rw [readerLoop]
  exact if_pos hc

theorem readerLoop_code {n fuel pos k next c : Nat} {table : List (Nat × Phrase)} {prev e : Phrase}
    (hc : (n >>> pos) % 2 ^ dataWidth k = c) (hne : c ≠ 17)
    (he : readerExpand table next prev c = some e) :
    readerLoop n (fuel + 1) pos k table next prev =
      (readerLoop n fuel (pos + dataWidth k) (k + 1) (readerTable table next prev e)
        (readerNext next prev) e).map fun r => (e ++ r.1, r.2) := by
  subst hc
  simp only [readerLoop, if_neg hne, he, readerTable, readerNext]
  split <;> rfl

/-- The reader finds every data code at its width and EOI behind them; the width it takes EOI at is that of
a further data code (log entry 19). -/
theorem readerLoop_of_readCodes {n fuel pos k next w : Nat} {table : List (Nat × Phrase)}
    {prev : Phrase} {codes : List Nat} {symbols : List ColorIndex}
    (hread : readCodes table next prev codes = some symbols)
    (fit : WordsFit (withWidths k codes)) (noEoi : ∀ code ∈ codes, code ≠ 17)
    (hn : n >>> pos = streamNumber 0 (withWidths k codes ++ [(17, w)])) (hfuel : codes.length < fuel) :
    readerLoop n fuel pos k table next prev =
      some (symbols, pos + streamBits (withWidths k codes) + dataWidth (k + codes.length)) := by
  induction codes generalizing fuel pos k table next prev symbols with
  | nil =>
    obtain ⟨fuel, rfl⟩ := Nat.exists_eq_succ_of_ne_zero (Nat.ne_of_gt hfuel)
    have hw : 17 < 2 ^ dataWidth k :=
      (by decide : 17 < 2 ^ 5).trans_le (Nat.pow_le_pow_right (by decide) (le_max_left ..))
    have hc : (n >>> pos) % 2 ^ dataWidth k = 17 := by
      rw [hn]
      exact Nat.mod_eq_of_lt hw
    cases hread
    exact readerLoop_eoi hc
  | cons c rest ih =>
    obtain ⟨fuel, rfl⟩ := Nat.exists_eq_succ_of_ne_zero (Nat.ne_of_gt (Nat.zero_lt_of_lt hfuel))
    obtain ⟨hfit, fitRest⟩ := List.forall_mem_cons.mp fit
    obtain ⟨hne, noEoiRest⟩ := List.forall_mem_cons.mp noEoi
    obtain ⟨e, he, hrest⟩ := Option.bind_eq_some_iff.mp hread
    obtain ⟨more, hmore, rfl⟩ := Option.map_eq_some_iff.mp hrest
    rw [withWidths, List.cons_append] at hn
    have hc : (n >>> pos) % 2 ^ dataWidth k = c := by rw [hn, streamNumber_cons_mod _ hfit]
    have hnext : n >>> (pos + dataWidth k) =
        streamNumber 0 (withWidths (k + 1) rest ++ [(17, w)]) := by
      rw [Nat.shiftRight_add, hn, streamNumber_cons_shiftRight _ hfit]
    rw [readerLoop_code hc hne he, ih hmore fitRest noEoiRest hnext (Nat.lt_of_succ_lt_succ hfuel),
      Option.map_some, withWidths, streamBits_cons, List.length_cons, Nat.add_right_comm k 1,
      Nat.add_assoc k, Nat.add_assoc pos]

/-! ### The reader's table lags the encoder's dictionary by one entry (95_test_vectors.md section 5) -/

theorem readerEntry_cons_self {next : Nat} (table : List (Nat × Phrase)) (entry : Phrase)
    (hn : 16 ≤ next) : readerEntry ((next, entry) :: table) next = some entry := by
  simp [readerEntry, Nat.not_lt.mpr hn]

theorem readerEntry_cons_of_ne {next c : Nat} (table : List (Nat × Phrase)) (entry : Phrase)
    (hc : c ≠ next) : readerEntry ((next, entry) :: table) c = readerEntry table c := by
  simp [readerEntry, List.lookup_cons, beq_false_of_ne hc]

/-- The reader's `table`, `rnext` and `prev` before it reads the code of a phrase that begins as `phrase`
does, where the encoder has `d` and `next`: every code below `rnext` is in the table, and the encoder's
last insertion, which the reader has yet to add, is `prev` and the first symbol of `phrase`. -/
structure Lags (d : Dict) (next : Nat) (phrase : Phrase) (table : List (Nat × Phrase)) (rnext : Nat)
    (prev : Phrase) : Prop where
  behind : readerNext rnext prev = next
  known : ∀ p c, codeOf d p = some c → c < rnext → readerEntry table c = some p
  unknown : ∀ c, rnext ≤ c → readerEntry table c = none
  latest : ∀ p, codeOf d p = some rnext → p = prev ++ phrase.take 1

theorem Lags.start (phrase : Phrase) : Lags [] 18 phrase [] 18 [] where
  behind := rfl
  known p c isCode _ := by
    match p with
    | [] => cases isCode
    | [a] =>
      cases isCode
      simp [readerEntry, a.isLt]
    | _ :: _ :: _ => cases isCode
  unknown c hc := by simp [readerEntry, show ¬c < 16 by omega]
  latest p isCode := absurd (DictInv.nil.codeOf_lt isCode) (lt_irrefl 18)

/-- A longer phrase begins with the same symbol. -/
theorem Lags.extend {d : Dict} {next rnext : Nat} {phrase prev : Phrase} {table : List (Nat × Phrase)}
    (h : Lags d next phrase table rnext prev) (buffered : phrase ≠ []) (c : ColorIndex) :
    Lags d next (phrase ++ [c]) table rnext prev where
  behind := h.behind
  known := h.known
  unknown := h.unknown
  latest p isCode := by
    rw [List.take_append_of_le_length (List.length_pos_iff.mpr buffered)]
    exact h.latest p isCode

/-- The reader expands the code of the encoder's phrase to it, the entry it is about to add included. -/
theorem Lags.expand {d : Dict} {next rnext code : Nat} {phrase prev : Phrase}
    {table : List (Nat × Phrase)} (h : Lags d next phrase table rnext prev) (inv : DictInv d next)
    (isCode : codeOf d phrase = some code) : readerExpand table rnext prev code = some phrase := by
  have hlt := inv.codeOf_lt isCode
  rcases Nat.lt_or_ge code rnext with hknown | hle
  · rw [readerExpand, h.known phrase code isCode hknown]
  · have behind := h.behind
    have hprev : prev ≠ [] := by
      rintro rfl
      rw [readerNext, if_pos rfl] at behind
      omega
    obtain rfl : code = rnext := by
      rw [readerNext, if_neg hprev] at behind
      omega
    have hphrase := h.latest phrase isCode
    have hfirst : prev.take 1 = phrase.take 1 := by
      conv_rhs => rw [hphrase]
      rw [List.take_append_of_le_length (List.length_pos_iff.mpr hprev)]
    rw [readerExpand, h.unknown code le_rfl, hfirst, ← hphrase]
    exact if_pos ⟨rfl, hprev⟩

/-- A code after an insertion is that of the key inserted or one from before. -/
theorem codeOf_write {d : Dict} {key p : Phrase} {next code : Nat}
    (h : codeOf (Dict.write d key next) p = some code) :
    (p = key ∧ code = next) ∨ codeOf d p = some code := by
  match p with
  | [] => cases h
  | [_] => exact .inr h
  | _ :: _ :: _ =>
    rw [codeOf, Dict.read_write] at h
    split at h
    · next hkey => exact .inl ⟨hkey.symm, (Option.some.inj h).symm⟩
    · exact .inr h

/-- The entry the reader adds is the encoder's last insertion. -/
theorem Lags.known_readerTable {d : Dict} {next rnext code : Nat} {phrase prev p : Phrase}
    {table : List (Nat × Phrase)} (h : Lags d next phrase table rnext prev) (inv : DictInv d next)
    (isCode : codeOf d p = some code) :
    readerEntry (readerTable table rnext prev phrase) code = some p := by
  have hn := inv.first_le
  have hlt := inv.codeOf_lt isCode
  have behind := h.behind
  by_cases hprev : prev = []
  · rw [readerNext, if_pos hprev] at behind
    rw [readerTable, if_pos hprev]
    exact h.known p code isCode (behind ▸ hlt)
  · rw [readerNext, if_neg hprev] at behind
    rw [readerTable, if_neg hprev]
    by_cases hc : code = rnext
    · subst hc
      rw [readerEntry_cons_self _ _ (by omega), ← h.latest p isCode]
    · rw [readerEntry_cons_of_ne _ _ hc]
      exact h.known p code isCode (by omega)

theorem Lags.unknown_readerTable {d : Dict} {next rnext : Nat} {phrase prev : Phrase}
    {table : List (Nat × Phrase)} (h : Lags d next phrase table rnext prev) {c : Nat} (hc : next ≤ c) :
    readerEntry (readerTable table rnext prev phrase) c = none := by
  have behind := h.behind
  by_cases hprev : prev = []
  · rw [readerNext, if_pos hprev] at behind
    rw [readerTable, if_pos hprev]
    exact h.unknown c (behind ▸ hc)
  · rw [readerNext, if_neg hprev] at behind
    rw [readerTable, if_neg hprev, readerEntry_cons_of_ne _ _ (by omega)]
    exact h.unknown c (by omega)

/-- The encoder inserts and the reader adds its entry: the reader still lags by one. -/
theorem Lags.advance {d : Dict} {next rnext code : Nat} {phrase prev : Phrase} {c : ColorIndex}
    {table : List (Nat × Phrase)} (h : Lags d next phrase table rnext prev) (inv : DictInv d next)
    (isCode : codeOf d phrase = some code) (absent : Dict.read d (phrase ++ [c]) = none) :
    Lags (Dict.write d (phrase ++ [c]) next) (next + 1) [c] (readerTable table rnext prev phrase)
      (readerNext rnext prev) phrase := by
  have buffered : phrase ≠ [] := by
    rintro rfl
    cases isCode
  rw [h.behind]
  constructor
  case behind => exact if_neg buffered
  case unknown => exact fun x hx => h.unknown_readerTable hx
  case known =>
    intro p x hx hlt
    rcases codeOf_write hx with ⟨-, rfl⟩ | hold
    · exact absurd hlt (lt_irrefl x)
    · exact h.known_readerTable inv hold
  case latest =>
    intro p hp
    rcases codeOf_write hp with ⟨hkey, -⟩ | hold
    · exact hkey
    · exact absurd (inv.codeOf_lt hold) (lt_irrefl next)

theorem Emits.readCodes_eq {d : Dict} {next rnext : Nat} {phrase prev : Phrase}
    {table : List (Nat × Phrase)} {symbols : List ColorIndex} {codes : List Nat}
    (h : Emits d next phrase symbols codes) (lags : Lags d next phrase table rnext prev) :
    readCodes table rnext prev codes = some (phrase ++ symbols) := by
  induction h generalizing table rnext prev with
  | last inv isCode =>
    rw [readCodes, lags.expand inv isCode]
    rfl
  | @known _ _ _ c _ _ buffered _ ih =>
    rw [ih (lags.extend buffered c), List.append_assoc, List.singleton_append]
  | mismatch inv isCode absent _ ih =>
    rw [readCodes, lags.expand inv isCode, Option.bind_some,
      ih (lags.advance inv isCode absent)]
    rfl

/-! ### The reader on ENCODE (P1) -/

theorem length_le_streamBits (k : Nat) (codes : List Nat) :
    codes.length ≤ streamBits (withWidths k codes) := by
  induction codes generalizing k with
  | nil => exact Nat.zero_le _
  | cons c rest ih =>
    have hrest := ih (k + 1)
    have hw : 5 ≤ dataWidth k := le_max_left ..
    rw [withWidths, streamBits_cons, List.length_cons]
    omega

theorem streamBits_append (first second : List (Nat × Nat)) :
    streamBits (first ++ second) = streamBits first + streamBits second := by
  rw [streamBits, List.map_append, List.sum_append, streamBits, streamBits]

/-- What the reader of section 5 needs of the data codes alone. -/
theorem readCodes_allDataCodes (symbols : List ColorIndex) :
    WordsFit (withWidths 1 (allDataCodes symbols)) ∧ (∀ code ∈ allDataCodes symbols, code ≠ 17) ∧
      readCodes [] 18 [] (allDataCodes symbols) = some symbols := by
  cases symbols with
  | nil => exact ⟨List.forall_mem_nil _, List.forall_mem_nil _, rfl⟩
  | cons c rest =>
    have h := emits_allDataCodes c rest
    exact ⟨h.wordsFit, h.ne_eoi, h.readCodes_eq (Lags.start [c])⟩

/-- Clear and EOI fit their widths too (R67). -/
theorem emittedCodes_wordsFit (symbols : List ColorIndex) : WordsFit (emittedCodes symbols) := by
  obtain ⟨fit, -, -⟩ := readCodes_allDataCodes symbols
  have hclear : 16 < 2 ^ 5 := by decide
  have heoi : 17 < 2 ^ dataWidth (allDataCodes symbols).length :=
    (by decide : 17 < 2 ^ 5).trans_le (Nat.pow_le_pow_right (by decide) (le_max_left ..))
  exact List.forall_mem_cons.mpr ⟨hclear, List.forall_mem_append.mpr
    ⟨fit, List.forall_mem_singleton.mpr heoi⟩⟩

theorem emittedCodes_streamBits (symbols : List ColorIndex) :
    streamBits (emittedCodes symbols) =
      5 + streamBits (withWidths 1 (allDataCodes symbols)) +
        dataWidth (allDataCodes symbols).length := by
  rw [emittedCodes, List.cons_append, streamBits_cons, streamBits_append, Nat.add_assoc]
  rfl

theorem dataWidth_mono {k m : Nat} (h : k ≤ m) : dataWidth k ≤ dataWidth m := by
  refine dataWidth_le (le_max_left ..) ?_
  calc 17 + k ≤ 17 + m := Nat.add_le_add_left h 17
    _ < 2 ^ bitlen (17 + m) := lt_two_pow_bitlen _
    _ ≤ 2 ^ dataWidth m := Nat.pow_le_pow_right (by decide) (le_max_right ..)

/-- When the reader answers: Clear, the loop, and nothing but zero bits, fewer than 8, behind it. -/
theorem readStream_eq_some {bytes : List Byte} {symbols : List ColorIndex} {pos : Nat}
    (hclear : numberOfBytes bytes % 2 ^ 5 = 16)
    (hloop : readerLoop (numberOfBytes bytes) (8 * bytes.length) 5 1 [] 18 [] = some (symbols, pos))
    (hzero : numberOfBytes bytes >>> pos = 0) (hend : 8 * bytes.length < pos + 8) :
    readStream bytes = some symbols := by
  simp only [readStream, hclear, hloop, if_true]
  exact if_pos ⟨hzero, hend⟩

/-- Settles O55: the reader finds the codes in the stream's bits, and expands them with a table one entry
behind the encoder's. -/
theorem readerRecoversTheSymbols : Obligations.ReaderRecoversTheSymbols := by
  intro symbols
  obtain ⟨fit, noEoi, hread⟩ := readCodes_allDataCodes symbols
  have emittedFit := emittedCodes_wordsFit symbols
  have hbits := emittedCodes_streamBits symbols
  have hnumber : numberOfBytes (encodeSymbols symbols) = streamNumber 0 (emittedCodes symbols) :=
    numberOfBytes_streamBytes emittedFit
  have hlength : (encodeSymbols symbols).length = (streamBits (emittedCodes symbols) + 7) / 8 :=
    length_streamBytes _
  have hcodes := length_le_streamBits 1 (allDataCodes symbols)
  have heoi : dataWidth (allDataCodes symbols).length ≤
      dataWidth (1 + (allDataCodes symbols).length) := dataWidth_mono (Nat.le_add_left ..)
  have hclear : numberOfBytes (encodeSymbols symbols) % 2 ^ 5 = 16 := by
    rw [hnumber]
    exact streamNumber_cons_mod _ (by decide)
  have hrest : numberOfBytes (encodeSymbols symbols) >>> 5 =
      streamNumber 0 (withWidths 1 (allDataCodes symbols) ++
        [(17, dataWidth (allDataCodes symbols).length)]) := by
    rw [hnumber]
    exact streamNumber_cons_shiftRight _ (by decide)
  have hloop := readerLoop_of_readCodes (fuel := 8 * (encodeSymbols symbols).length) hread fit noEoi
    hrest (by omega)
  refine readStream_eq_some hclear hloop ?_ (by omega)
  rw [hnumber]
  refine Nat.shiftRight_eq_zero _ _ ?_
  exact (streamNumber_lt emittedFit).trans_le (Nat.pow_le_pow_right (by decide) (by omega))

end Sys2Proof.Machine

namespace Sys2Proof.Machine

/-! ### The Color Indexer (R90, R91) -/

theorem channelBit_eq (channel : Byte) (weight : ColorIndex) :
    channelBit channel weight = if channel = 0 then 0 else weight := ite_not ..

/-- Opacity 0 wins over any colour. -/
theorem index_transparent (red green blue : Byte) : index red green blue 0 = 15 := rfl

/-- Any other opacity is fully opaque. -/
theorem index_opaque {opacity : Byte} (h : opacity ≠ 0) (red green blue : Byte) :
    index red green blue opacity = channelBit red 4 ||| channelBit green 2 ||| channelBit blue 1 :=
  if_neg h

/-- The weights 4, 2 and 1 share no bit, so joining the channels' bits adds them. -/
theorem channelBits_toNat (red green blue : Byte) :
    (channelBit red 4 ||| channelBit green 2 ||| channelBit blue 1).toNat =
      (if red = 0 then 0 else 4) + (if green = 0 then 0 else 2) + (if blue = 0 then 0 else 1) := by
  simp only [channelBit_eq]
  split_ifs <;> rfl

theorem index_toNat (red green blue opacity : Byte) : (index red green blue opacity).toNat =
    if opacity = 0 then 15
    else (if red = 0 then 0 else 4) + (if green = 0 then 0 else 2) + (if blue = 0 then 0 else 1) := by
  split
  case isTrue transparent => rw [transparent, index_transparent]; rfl
  case isFalse visible => rw [index_opaque visible, channelBits_toNat]

theorem index_range (red green blue opacity : Byte) :
    (index red green blue opacity).toNat ≤ 7 ∨ (index red green blue opacity).toNat = 15 := by
  rw [index_toNat]
  split
  case isTrue => exact .inr rfl
  case isFalse => exact .inl (by split_ifs <;> decide)

/-- Each of 0 to 7 is reached by the opaque pixel whose channels are its own three bits. -/
theorem index_of_own_bits : ∀ c : ColorIndex, c.toNat ≤ 7 →
    index ((c &&& 4).setWidth 8) ((c &&& 2).setWidth 8) ((c &&& 1).setWidth 8) 1 = c := by decide

/-- Settles O43: an index's bits say which channels are not zero, and 15 is the transparent pixel's. -/
theorem indexOfAPixel : Obligations.IndexOfAPixel := by
  refine ⟨index_toNat, fun c => ⟨?_, ?_⟩⟩
  · rintro ⟨red, green, blue, opacity, rfl⟩
    exact index_range red green blue opacity
  · rintro (visible | transparent)
    · exact ⟨_, _, _, _, index_of_own_bits c visible⟩
    · exact ⟨0, 0, 0, 0, (index_transparent 0 0 0).trans (BitVec.eq_of_toNat_eq transparent.symm)⟩

end Sys2Proof.Machine

namespace Sys2Proof.Machine

/-! ### Every word completes (R98, R130, R131) -/

/-- Settles O32: a word that decodes raises a fault, is performed or is discarded, and one that does not
decode is illegal or discarded. -/
theorem everyWordCompletes : Obligations.EveryWordCompletes :=
  fun w _ inv => inv.presentWord_completes w

end Sys2Proof.Machine

namespace Sys2Proof.Machine

/-! ### The stream bit by bit (R44, R105) -/

/-- A word pushed above a stream of `n` bits: below bit `n` the stream, from bit `n` on the word. -/
theorem testBit_add_shiftLeft {low n : Nat} (fits : low < 2 ^ n) (high j : Nat) :
    (low + high <<< n).testBit j = if j < n then low.testBit j else high.testBit (j - n) := by
  rw [Nat.shiftLeft_eq, Nat.add_comm, Nat.mul_comm, Nat.testBit_two_pow_mul_add _ fits]

/-- The stream of `t` is that of `s` with further words, or none, pushed above it (R105). -/
def ExtendsStream (s t : State) : Prop :=
  s.nbits ≤ t.nbits ∧ ∃ high, t.acc = s.acc + high <<< s.nbits

theorem ExtendsStream.of_same {s t : State} (hacc : t.acc = s.acc) (hnbits : t.nbits = s.nbits) :
    ExtendsStream s t :=
  ⟨hnbits.ge, 0, by rw [hacc, Nat.zero_shiftLeft, Nat.add_zero]⟩

theorem ExtendsStream.keeps_bits {s t : State} (h : ExtendsStream s t) (wf : Memory.wf s) :
    ∀ j < s.nbits, t.acc.testBit j = s.acc.testBit j := by
  intro j hj
  obtain ⟨-, high, hacc⟩ := h
  rw [hacc, testBit_add_shiftLeft wf.2, if_pos hj]

/-! ### PUSHWORD and SETWIDTH (R105, R106) -/

theorem pushBits_extendsStream (v w : Nat) (s : State) : ExtendsStream s (pushBits v w s) :=
  ⟨Nat.le_add_right .., v, rfl⟩

/-- Bit `j` of the value is stream bit NBITS + `j`. -/
theorem pushBits_testBit {s : State} (wf : Memory.wf s) (v w j : Nat) :
    (pushBits v w s).acc.testBit (s.nbits + j) = v.testBit j := by
  rw [pushBits_acc, testBit_add_shiftLeft wf.2, if_neg (Nat.not_lt.mpr (Nat.le_add_right ..)),
    Nat.add_sub_cancel_left]

/-- Settles O44: PUSHWORD adds the value shifted by NBITS to an ACC below 2^NBITS, so no bit carries. -/
theorem pushWordPlacesEveryBit : Obligations.PushWordPlacesEveryBit := by
  intro v w s wf hopen
  have hclosed : ¬StreamClosed s := fun h => hopen.elim (· h.1) h.2
  refine ⟨fun hw hv => ?fits, fun hmisfit => ?misfit⟩
  case fits =>
    exact ⟨pushBits v w s, pushWord_fits hclosed hw hv, rfl,
      (pushBits_extendsStream v w s).keeps_bits wf, pushBits_testBit wf v w⟩
  case misfit => exact pushWord_misfit hclosed (by omega)

/-- A width outside the operand's domain is refused (R106). -/
theorem setWidth_below {w : Nat} (h : w < 5) (s : State) :
    setWidth w s = .refused .widthBelowInitial := if_pos h

/-- A smaller width within an encode is refused (U18). -/
theorem setWidth_narrows {w : Nat} {s : State} (h5 : 5 ≤ w) (h : Narrows w s) :
    setWidth w s = .refused .widthNarrowed := (if_neg (Nat.not_lt.mpr h5)).trans (if_pos h)

/-- Settles O46: the width is written unless it is below 5 or narrows within an encode. -/
theorem setWidthWritesTheWidthOrRefuses : Obligations.SetWidthWritesTheWidthOrRefuses := by
  refine fun w s => ⟨fun h5 hwide => ?_, fun hbelow => setWidth_below hbelow s,
    fun h5 hnarrow hbits => setWidth_narrows h5 ⟨hnarrow, hbits⟩⟩
  have hwidens : ¬Narrows w s := fun hn => hwide.elim (Nat.not_le.mpr hn.1) hn.2
  exact setWidth_eq_next.mpr ⟨h5, hwidens, rfl⟩

/-! ### FINISH (R107) -/

theorem nbits_add_padding (n : Nat) : n + padding n = 8 * ((n + 7) / 8) := by
  rw [padding]
  omega

/-- Byte `k` holds the number's bits from bit 8 `k` on (R44). -/
theorem packedBytes_getLsbD {number n k r : Nat} {b : Byte} (hb : (packedBytes number n)[k]? = some b)
    (hr : r < 8) : b.getLsbD r = number.testBit (8 * k + r) := by
  obtain ⟨hk, rfl⟩ := List.getElem?_eq_some_iff.mp hb
  simp only [packedBytes, List.getElem_map, List.getElem_range, BitVec.getLsbD_ofNat, hr, decide_true,
    Bool.true_and, Nat.testBit_shiftRight]

/-- Settles O47: bit `i` is bit `i % 8` of the byte of the eight bits from `8 * (i / 8)` on. -/
theorem finishPlacesEveryBit : Obligations.FinishPlacesEveryBit := by
  refine fun s _ => ⟨?padded, ?length, fun i b hb => ?bits⟩
  case padded => rw [← nbits_add_padding, finish, padToByte]
  case length => rw [finish_bytes, packedBytes, List.length_map, List.length_range]
  case bits =>
    rw [finish_bytes] at hb
    rw [packedBytes_getLsbD hb (Nat.mod_lt _ (by decide)), Nat.div_add_mod]

/-! ### What the commands do to the stream (R105, R109) -/

theorem afterEnd_extendsStream (codes : List Nat) (s : State) : ExtendsStream s (afterEnd codes s) := by
  refine ⟨?_, streamNumber 0 (codes.map fun c => (c, s.curWidth)), ?_⟩
  · rw [afterEnd_nbits]
    exact Nat.le_add_right ..
  · rw [afterEnd_acc, streamNumber_eq_mul, Nat.shiftLeft_eq]

/-- FINISH, and the delivery of any OUT, leave the bits pushed so far (R107). -/
theorem ExtendsStream.delivered {s t : State} (h : ExtendsStream s t) (out : List Byte) :
    ExtendsStream s { padToByte t with out := out } :=
  ⟨h.1.trans (Nat.le_add_right ..), h.2⟩

theorem Performed.extendsStream {i : Instr} {s t : State} (h : Performed s i t) (hi : i ≠ .start) :
    ExtendsStream s t := by
  cases h with
  | start => exact absurd rfl hi
  | cfgdim => exact .of_same rfl rfl
  | cfgdly => exact .of_same rfl rfl
  | first => exact .of_same rfl rfl
  | known => exact .of_same rfl rfl
  | mismatch => exact pushBits_extendsStream _ s.curWidth s
  | flush => exact (afterEnd_extendsStream _ s).delivered _
  | save => exact (afterEnd_extendsStream _ s).delivered _

theorem exec_extendsStream {i : Instr} {s t : State} (hi : i ≠ .start) (h : exec i s = .next t) :
    ExtendsStream s t := by
  rcases exec_cases h with ⟨-, rfl⟩ | ⟨-, cause, -, rfl⟩ | ⟨-, hp⟩
  · exact .of_same rfl rfl
  · exact .of_same rfl rfl
  · exact hp.extendsStream hi

/-- Settles O39: no command but START writes ACC other than by pushing words above the stream. -/
theorem pushedBitsNeverChange : Obligations.PushedBitsNeverChange := by
  intro i s t wf hi h
  have hext := exec_extendsStream hi h
  exact ⟨hext.1, hext.keeps_bits wf⟩

/-! ### The closed stream (R107, R125) -/

theorem Supplies.ne_end {i : Instr} {c : ColorIndex} (h : Supplies i c) : ¬(i = .flush ∨ i = .save) := by
  rcases h with rfl | ⟨r, g, b, a, rfl, -⟩ <;> simp

/-- LZW_END pushes EOI at least, so the stream it leaves is not empty (R125, R126). -/
theorem EndCodes.streamClosed {s : State} {codes : List Nat} (h : EndCodes s codes)
    (positive : 1 ≤ s.curWidth) : StreamClosed (afterEnd codes s) := by
  refine ⟨afterEnd_lzState codes s, ?_⟩
  rw [afterEnd_nbits]
  cases h with
  | eoi =>
    rw [List.map_cons, streamBits_cons]
    omega
  | phrase =>
    rw [List.map_cons, streamBits_cons]
    omega

theorem StreamClosed.delivered {s : State} (h : StreamClosed s) (out : List Byte) :
    StreamClosed { padToByte s with out := out } :=
  ⟨h.1, fun hz => h.2 (Nat.eq_zero_of_add_eq_zero_right hz)⟩

theorem Performed.streamClosed {i : Instr} {s t : State} (h : Performed s i t)
    (hi : i = .flush ∨ i = .save) : StreamClosed t := by
  cases h with
  | cfgdim => simp at hi
  | cfgdly => simp at hi
  | start => simp at hi
  | first supplies => exact absurd hi supplies.ne_end
  | known supplies => exact absurd hi supplies.ne_end
  | mismatch supplies => exact absurd hi supplies.ne_end
  | flush _ ended positive => exact (ended.streamClosed positive).delivered _
  | save _ _ ended positive => exact (ended.streamClosed positive).delivered _

/-- Settles O45: a FLUSH or SAVE that answers an unfaulted state was performed, and then the stream is
closed. -/
theorem pushAfterFinishIsRefused : Obligations.PushAfterFinishIsRefused := by
  intro i s t hi ready h hf v w
  rcases exec_cases h with ⟨hfrozen, -⟩ | ⟨-, cause, -, rfl⟩ | ⟨-, hp⟩
  · exact absurd ready.1 hfrozen
  · exact absurd hf (code_ne_zero cause)
  · exact pushWord_closed (hp.streamClosed hi)

end Sys2Proof.Machine

namespace Sys2Proof.Machine

/-! ### What a performed symbol leaves (R121 to R123) -/

/-- A command supplies one symbol (R174, R175). -/
theorem Supplies.unique {i : Instr} {c d : ColorIndex} (hc : Supplies i c) (hd : Supplies i d) :
    c = d := by
  rcases hc with rfl | ⟨r, g, b, a, rfl, rfl⟩ <;> simpa [Supplies] using hd

theorem Supplies.ne_start {i : Instr} {c : ColorIndex} (h : Supplies i c) : i ≠ .start := by
  rcases h with rfl | ⟨r, g, b, a, rfl, -⟩ <;> simp

/-- Everything a performed symbol can do: one of the three branches of LZW_STEP, the symbol counted. -/
theorem Performed.supplied_cases {i : Instr} {c : ColorIndex} {s t : State} (h : Performed s i t)
    (hi : Supplies i c) :
    (s.phrase = [] ∧ t = countSymbol (lzwFirst c s)) ∨
    (s.phrase ≠ [] ∧ (∃ k, Dict.read s.dict (s.phrase ++ [c]) = some k) ∧
      t = countSymbol (lzwMatch c s)) ∨
    (s.phrase ≠ [] ∧ Dict.read s.dict (s.phrase ++ [c]) = none ∧
      (s.nextCode + 1 < 2 ^ s.curWidth ∨ s.params.maxWidth ≠ .bounded s.curWidth) ∧
      ∃ code, codeOf s.dict s.phrase = some code ∧ t = afterMismatch c code s) := by
  cases h with
  | first supplies _ empty =>
    cases supplies.unique hi
    exact .inl ⟨empty, rfl⟩
  | known supplies _ buffered present =>
    cases supplies.unique hi
    exact .inr (.inl ⟨buffered, ⟨_, present⟩, rfl⟩)
  | mismatch supplies _ buffered absent roomy isCode =>
    cases supplies.unique hi
    exact .inr (.inr ⟨buffered, absent, roomy, _, isCode, rfl⟩)
  | _ => simp [Supplies] at hi

/-- A performed symbol leaves a phrase buffered (R14). -/
theorem Performed.supplied_lzState {i : Instr} {c : ColorIndex} {s t : State} (h : Performed s i t)
    (hi : Supplies i c) (buffered : s.phrase ≠ [] → s.lzState = .accumulating) :
    t.lzState = .accumulating := by
  rcases h.supplied_cases hi with ⟨-, rfl⟩ | ⟨hp, -, rfl⟩ | ⟨hp, -, -, code, -, rfl⟩
  · rfl
  · exact buffered hp
  · exact buffered hp

/-- A performed symbol respects the width limit: the one that would not overflows (R25, R128). -/
theorem Performed.supplied_withinLimit {i : Instr} {c : ColorIndex} {s t : State}
    (h : Performed s i t) (hi : Supplies i c) (within : WithinLimit s.params.maxWidth s.curWidth) :
    WithinLimit t.params.maxWidth t.curWidth := by
  rcases h.supplied_cases hi with ⟨-, rfl⟩ | ⟨-, -, rfl⟩ | ⟨-, -, roomy, code, -, rfl⟩
  · exact within
  · exact within
  · exact withinLimit_grow within roomy

/-- A performed symbol keeps an encode running and its prospect as it is. -/
theorem Encoding.supplied {i : Instr} {c : ColorIndex} {s t : State} (h : Encoding s)
    (hi : Supplies i c) (hp : Performed s i t) (rest : List ColorIndex) :
    Encoding t ∧ prospect t rest = prospect s (c :: rest) := by
  rcases hp.supplied_cases hi with ⟨empty, rfl⟩ | ⟨buffered, ⟨k, present⟩, rfl⟩ |
    ⟨buffered, absent, -, code, isCode, rfl⟩
  · exact ⟨h.first, prospect_first rest empty⟩
  · exact ⟨h.known present, prospect_known rest buffered present⟩
  · exact ⟨h.mismatch buffered absent, h.prospect_mismatch rest buffered absent isCode⟩

/-! ### An input that passes the limit (R127, R128, R206) -/

/-- A frozen block discards every command list (R209). -/
theorem execAll_frozen (commands : List Instr) {s : State} (h : s.fault ≠ 0) :
    execAll commands s = .next s := by
  induction commands with
  | nil => rfl
  | cons i rest ih => rw [execAll_cons_next (exec_frozen i h), ih]

/-- A running encode that has respected the limit so far and delivered nothing. Unlike `BlockInv` it
asks nothing of the dimensions and of FAULT_CMD, so START establishes it from every unfaulted state. -/
structure LimitedEncoding (s : State) : Prop extends Encoding s where
  within : WithinLimit s.params.maxWidth s.curWidth
  buffered : s.phrase ≠ [] → s.lzState = .accumulating
  output : s.out = []

theorem started_limitedEncoding {s : State} (hf : s.fault = 0) (legal : s.params.Legal) :
    LimitedEncoding (started s) where
  toEncoding := started_encoding hf
  within := withinLimit_five legal
  buffered hp := absurd rfl hp
  output := rfl

theorem LimitedEncoding.supplied {i : Instr} {c : ColorIndex} {s t : State} (h : LimitedEncoding s)
    (hi : Supplies i c) (hp : Performed s i t) : LimitedEncoding t where
  toEncoding := (h.toEncoding.supplied hi hp []).1
  within := hp.supplied_withinLimit hi h.within
  buffered _ := hp.supplied_lzState hi h.buffered
  output := (hp.out hi.ne_start (fun he => hi.ne_end (.inl he)) (fun he => hi.ne_end (.inr he))).trans
    h.output

theorem WithinLimit.le {limit : WidthLimit} {width m : Nat} (h : WithinLimit limit width)
    (hm : limit = .bounded m) : width ≤ m := by
  rwa [hm] at h

theorem Prospect.fits_iff {p : Prospect} :
    p.Fits ↔ ∀ m, p.params.maxWidth = .bounded m → p.endCode ≤ 2 ^ m := by
  refine ⟨fun h m hm => h.le hm, fun h => ?_⟩
  unfold Prospect.Fits
  split
  case h_1 m hm => exact h m hm
  case h_2 => trivial

/-- With no symbol to come nothing lies ahead that could overflow: the code of the buffered phrase is
followed by no insertion (R125, R128). -/
theorem LimitedEncoding.prospect_nil_fits {s : State} (h : LimitedEncoding s) :
    (prospect s []).Fits := by
  refine Prospect.fits_iff.mpr fun m hm => ?_
  have hnext : s.nextCode < 2 ^ m :=
    h.nextCode_fits.trans_le (Nat.pow_le_pow_right (by decide) (h.within.le hm))
  have hfirst := h.dict.first_le
  have hend := h.endCode
  omega

/-- The state a DictionaryOverflow leaves, the encode neither ended nor delivered (R206, R208). -/
def Overflowed (s : State) : Prop := s.fault = 5 ∧ s.out = [] ∧ s.lzState = .accumulating

theorem LimitedEncoding.raise_overflowed {i : Instr} {s : State} (h : LimitedEncoding s)
    (hr : Raises s i .dictionaryOverflow) (w : CmdWord) :
    Overflowed (raise .dictionaryOverflow w s) := by
  cases hr with
  | overflow _ _ buffered => exact ⟨rfl, h.output, h.buffered buffered⟩

/-- Symbols that do not fit overflow: at some symbol the fault is raised, and the rest is discarded. -/
theorem LimitedEncoding.supplyAll_overflows {commands : List Instr} {symbols : List ColorIndex}
    {s : State} (hc : List.Forall₂ Supplies commands symbols) (h : LimitedEncoding s)
    (hfits : ¬(prospect s symbols).Fits) :
    ∃ t, execAll commands s = .next t ∧ Overflowed t := by
  induction hc generalizing s with
  | nil => exact absurd h.prospect_nil_fits hfits
  | @cons i c commands symbols hi _ ih =>
    have hf := h.ready.1
    rcases h.supply_completes hi with hr | ⟨u, hp⟩
    · refine ⟨_, ?_, h.raise_overflowed hr (encode i)⟩
      rw [execAll_cons_next (exec_of_raises hf hr), execAll_frozen _ (code_ne_zero .dictionaryOverflow)]
    · rw [← (h.toEncoding.supplied hi hp symbols).2] at hfits
      rw [execAll_cons_next (exec_of_performed hf h.five_le_curWidth hp)]
      exact ih (h.supplied hi hp) hfits

/-- Settles O54: START makes the prospect of the symbols, which does not fit. A performed symbol leaves
the prospect as it is, and at the end of the input every prospect fits, so a symbol has overflowed;
FLUSH is then discarded. -/
theorem overflowingInputFaults : Obligations.OverflowingInputFaults := by
  intro symbols s hf legal hover
  have hfits : ¬(prospect (started s) symbols).Fits := by
    rwa [prospect_started, encodeProspect_fits]
  obtain ⟨t, ht, hfault, hout, hz⟩ :=
    (started_limitedEncoding hf legal).supplyAll_overflows (supplies_symbols symbols) hfits
  refine ⟨t, ?_, hfault, hout, hz⟩
  rw [List.cons_append, execAll_cons_next (exec_start_unfaulted hf), execAll_append _ ht,
    execAll_frozen _ (by rw [hfault]; decide)]

/-! ### The answers of single commands (R120 to R126, R176) -/

/-- Settles O3: the state LZW_INIT leaves, SYMCOUNT and OUT cleared. -/
theorem startBeginsFreshEncode : Obligations.StartBeginsFreshEncode :=
  fun _ hf => exec_start_unfaulted hf

/-- Settles O4, by the first branch of LZW_STEP; with an empty PHRASE there is no overflow to check. -/
theorem firstSymbolIsBuffered : Obligations.FirstSymbolIsBuffered := by
  intro i c s hi ready hp
  rw [exec_supplies_performs hi ready (overflowCheck_eq_none (.inl hp)), supplySymbol,
    lzwStep_first hp]
  rfl

/-- Settles O5, by the match branch of LZW_STEP; a present key passes the overflow check. -/
theorem knownPhraseIsExtended : Obligations.KnownPhraseIsExtended := by
  intro i c s k hi ready hp present
  have hcheck : overflowCheck c s = none := overflowCheck_eq_none (.inr (.inl (by simp [present])))
  rw [exec_supplies_performs hi ready hcheck, supplySymbol, lzwStep_match hp present]
  rfl

/-- Settles O6: the overflow condition is what `Raises` asks for, its negation what `Performed` asks for. -/
theorem mismatchInsertsOrOverflows : Obligations.MismatchInsertsOrOverflows := by
  intro i c s hi ⟨hf, hrun⟩ hp absent
  refine ⟨fun ⟨full, limit⟩ => exec_of_raises hf (.overflow hi hrun hp absent full limit),
    fun hroom k isCode fits hw => ?_⟩
  have roomy : s.nextCode + 1 < 2 ^ s.curWidth ∨ s.params.maxWidth ≠ .bounded s.curWidth :=
    (not_and_or.mp hroom).imp_left Nat.lt_of_not_le
  rw [exec_of_performed hf hw (.mismatch hi hrun hp absent roomy isCode (by omega) fits),
    afterMismatch, Nat.shiftLeft_eq]
  rfl

theorem streamBits_same_width (codes : List Nat) (w : Nat) :
    streamBits (codes.map fun c => (c, w)) = codes.length * w := by
  induction codes with
  | nil => simp [streamBits]
  | cons c rest ih => rw [List.map_cons, streamBits_cons, ih, List.length_cons]; ring

/-- What LZW_END and FINISH make of the state, as one update (R107, R125, R176). -/
theorem deliverStream_afterEnd (codes : List Nat) (s : State) :
    deliverStream (afterEnd codes s) = { s with
      acc := s.acc + streamNumber s.nbits (codes.map fun c => (c, s.curWidth))
      nbits := 8 * ((s.nbits + codes.length * s.curWidth + 7) / 8)
      lzState := .flushed
      out := packedBytes (s.acc + streamNumber s.nbits (codes.map fun c => (c, s.curWidth)))
        ((s.nbits + codes.length * s.curWidth + 7) / 8) } := by
  rw [deliverStream, finish_bytes, afterEnd_eq, ← streamBits_same_width, ← nbits_add_padding]
  rfl

/-- Settles O8: the codes pushed are those of LZW_END, and shifting right by 8 j is dividing by
2^(8 j). -/
theorem flushDeliversPackedStream : Obligations.FlushDeliversPackedStream := by
  intro s codes ⟨hf, hrun⟩ hw hcodes
  have ended : EndCodes s codes := by
    rcases hcodes with ⟨hp, rfl⟩ | ⟨hp, k, isCode, fits, rfl⟩
    · exact .eoi hp
    · exact .phrase hp isCode fits
  have h17 : 17 < 2 ^ s.curWidth :=
    (by decide : 17 < 2 ^ 5).trans_le (Nat.pow_le_pow_right (by decide) hw)
  rw [exec_of_performed hf hw (.flush hrun ended (by omega) h17), deliverStream_afterEnd]
  simp only [packedBytes, Nat.shiftRight_eq_div_pow]

/-- Settles O9: START leaves no phrase, so FLUSH pushes EOI alone behind Clear; SAVE counts no symbol
where the image has pixels. -/
theorem emptyInputGivesClearAndEoi : Obligations.EmptyInputGivesClearAndEoi := by
  intro s hf
  simp only [execAll_cons_next (exec_start_unfaulted hf)]
  constructor
  · have hflush := flushDeliversPackedStream (started s) [17] ⟨hf, rfl⟩ (Nat.le_refl 5)
      (.inl ⟨rfl, rfl⟩)
    refine ⟨_, execAll_cons_next hflush, ?_, rfl, ?_, hf⟩
    · simp [streamNumber, List.range_succ]
    · simp
  · intro hw hh
    have hpixels : s.width.toNat * s.height.toNat ≠ 0 :=
      Nat.mul_ne_zero (BitVec.toNat_ne_iff_ne.mpr hw) (BitVec.toNat_ne_iff_ne.mpr hh)
    have hsave := exec_of_raises (s := started s) hf (.count rfl hpixels.symm)
    exact ⟨_, execAll_cons_next hsave, rfl, rfl, rfl⟩

/-! ### LZ_STATE and the width over every command (R123, R124, R131) -/

/-- PIX, SYM, FLUSH and SAVE are performed only while an encode runs (R170 step 3). -/
theorem Performed.running {i : Instr} {s t : State} (h : Performed s i t) (hi : NeedsEncode i) :
    s.lzState.running = true := by
  cases h with
  | cfgdim => simp [NeedsEncode, Supplies] at hi
  | cfgdly => simp [NeedsEncode, Supplies] at hi
  | start => simp [NeedsEncode, Supplies] at hi
  | first _ running => exact running
  | known _ running => exact running
  | mismatch _ running => exact running
  | flush running => exact running
  | save running => exact running

/-- The commands that run no encode leave LZ_STATE (R171, R172). -/
theorem Performed.lzState_same {i : Instr} {s t : State} (h : Performed s i t) (hstart : i ≠ .start)
    (hi : ¬NeedsEncode i) : t.lzState = s.lzState := by
  cases h with
  | cfgdim => rfl
  | cfgdly => rfl
  | start => exact absurd rfl hstart
  | first supplies => exact absurd (.inl ⟨_, supplies⟩) hi
  | known supplies => exact absurd (.inl ⟨_, supplies⟩) hi
  | mismatch supplies => exact absurd (.inl ⟨_, supplies⟩) hi
  | flush => exact absurd (.inr (.inl rfl)) hi
  | save => exact absurd (.inr (.inr rfl)) hi

/-- Settles O34: a discarded or faulting command leaves LZ_STATE, a performed one moves it by its kind. -/
theorem lzStateTransitions : Obligations.LzStateTransitions := by
  intro i s t inv h
  rcases exec_cases h with ⟨hfrozen, rfl⟩ | ⟨-, cause, -, rfl⟩ | ⟨hf, hp⟩
  · exact ⟨fun _ => rfl, fun hf => absurd hf hfrozen⟩
  · exact ⟨fun _ => rfl, fun _ hf => absurd hf (code_ne_zero cause)⟩
  · have hfault : t.fault = 0 := hp.fault.trans hf
    refine ⟨fun hne => ?unfaulted, fun _ _ => ⟨?start, ?symbol, ?ended, hp.lzState_same⟩⟩
    case unfaulted => exact hne.elim (absurd hf) (absurd hfault)
    case start =>
      rintro rfl
      rw [exec_start_unfaulted hf] at h
      cases h
      rfl
    case symbol =>
      rintro ⟨c, hc⟩
      have running := hp.running (.inl ⟨c, hc⟩)
      exact ⟨running, hp.supplied_lzState hc (inv.accumulating_of_phrase running)⟩
    case ended => exact fun hi => ⟨hp.running (.inr hi), (hp.streamClosed hi).1⟩

/-- NEXT_CODE and CUR_WIDTH between two STARTs: both stay, or the former is incremented and the latter
widened where the new code needs it (R123, R124). -/
theorem Performed.codes_cases {i : Instr} {s t : State} (h : Performed s i t) (hi : i ≠ .start) :
    (t.nextCode = s.nextCode ∧ t.curWidth = s.curWidth) ∨
    (t.nextCode = s.nextCode + 1 ∧
      t.curWidth = if 2 ^ s.curWidth ≤ s.nextCode + 1 then s.curWidth + 1 else s.curWidth) := by
  cases h with
  | start => exact absurd rfl hi
  | mismatch => exact .inr ⟨rfl, rfl⟩
  | _ => simp

/-- Settles O38: only a mismatch touches NEXT_CODE and CUR_WIDTH, and NEXT_CODE, which fitted, needs a
wider width only by being 2^CUR_WIDTH. -/
theorem widthGrowsAtPowersOfTwo : Obligations.WidthGrowsAtPowersOfTwo := by
  intro i s t inv hi h
  rcases exec_cases h with ⟨-, rfl⟩ | ⟨-, cause, -, rfl⟩ | ⟨-, hp⟩
  · exact .inl ⟨rfl, rfl⟩
  · exact .inl ⟨rfl, rfl⟩
  · rcases hp.codes_cases hi with hsame | ⟨hnext, hwidth⟩
    · exact .inl hsame
    · have hfits := inv.nextCode_fits
      have hdouble : 2 ^ (s.curWidth + 1) = 2 * 2 ^ s.curWidth := Nat.pow_succ'
      rw [hnext, hwidth]
      split
      case isTrue grows => exact .inr (.inr ⟨rfl, by omega, rfl, by omega⟩)
      case isFalse stays => exact .inr (.inl ⟨rfl, by omega, rfl⟩)

end Sys2Proof.Machine

namespace Sys2Proof.Machine

/-! ### Commands that supply one symbol (R90, R174, R175) -/

/-- Commands that supply the same symbol answer alike, but for the word a fault records: they differ in
nothing else that the common execution rule looks at (R170). -/
theorem exec_supplies_same {i j : Instr} {c : ColorIndex} (hi : Supplies i c) (hj : Supplies j c)
    (s : State) :
    exec i s = exec j s ∨
      ∃ cause, exec i s = .next (raise cause (encode i) s) ∧
        exec j s = .next (raise cause (encode j) s) := by
  by_cases hf : s.fault = 0
  · cases hrun : s.lzState.running with
    | false =>
      exact .inr ⟨.sequenceError, exec_outOfSequence (.inl ⟨c, hi⟩) hf hrun,
        exec_outOfSequence (.inl ⟨c, hj⟩) hf hrun⟩
    | true =>
      cases hcheck : overflowCheck c s with
      | none =>
        exact .inl ((exec_supplies_performs hi ⟨hf, hrun⟩ hcheck).trans
          (exec_supplies_performs hj ⟨hf, hrun⟩ hcheck).symm)
      | some cause =>
        have raises : ∀ {k}, Supplies k c → exec k s = .next (raise cause (encode k) s) := fun hk => by
          rw [exec_supplies hk, execute_raises hf ((legalIn_supplies hk _).trans hrun) hcheck]
        exact .inr ⟨cause, raises hi, raises hj⟩
  · exact .inl ((exec_frozen i hf).trans (exec_frozen j hf).symm)

/-- Settles O7: PIX and SYM of the pixel's index supply the same symbol. -/
theorem pixActsAsSymOfItsIndex : Obligations.PixActsAsSymOfItsIndex :=
  fun r g b a s => exec_supplies_same (.inr ⟨r, g, b, a, rfl, rfl⟩) (.inl rfl) s

/-! ### The file around the stream (R148, R177) -/

/-- Behind LZW_END, SAVE delivers FLUSH's stream in a file over the registers from before it. -/
theorem deliverFile_afterEnd (codes : List Nat) (s : State) :
    deliverFile (afterEnd codes s) = { deliverStream (afterEnd codes s) with
      out := assemble s.params.gct s.width s.height s.delayMs
        (deliverStream (afterEnd codes s)).out } := by
  rw [afterEnd_eq]
  rfl

/-- Settles O10: under the invariant LZW_END has codes to push, the same for both commands. -/
theorem saveWrapsTheStreamInTheFile : Obligations.SaveWrapsTheStreamInTheFile := by
  intro s inv ready count
  have encoding := inv.encoding ready
  obtain ⟨hf, hrun⟩ := ready
  obtain ⟨codes, ended, -⟩ := encoding.endCodes
  have hw := inv.five_le_curWidth
  have positive := encoding.one_le_curWidth
  have fits := encoding.eoi_fits
  refine ⟨deliverStream (afterEnd codes s),
    exec_of_performed hf hw (.flush hrun ended positive fits), ?_⟩
  rw [exec_of_performed hf hw (.save hrun count ended positive fits), deliverFile_afterEnd]

/-! ### The register writes and the pseudo-instruction ADD (R171, R172, R178) -/

/-- Settles O1: with both operands non-zero CFGDIM is performed, else it raises InvalidDimensions. -/
theorem cfgdimWritesDimensionsOrFaults : Obligations.CfgdimWritesDimensionsOrFaults := by
  refine fun w h s hf => ⟨fun nonzero => ?_, fun zero => exec_of_raises hf (.dimensions zero)⟩
  rw [exec_cfgdim, execute_performs hf rfl (dimensionsCheck_passes nonzero), setDimensions]

/-- Settles O2: CFGDLY is legal in every LZ_STATE and has no check of its own. -/
theorem cfgdlyWritesDelay : Obligations.CfgdlyWritesDelay := by
  intro d s hf
  rw [exec_cfgdly, execute_performs hf rfl rfl, setDelay]

/-- A dimension or delay operand fits when it is a 16-bit number (R75). -/
theorem halfFits_iff {n : Nat} : Asm.halfFits n = true ↔ n < 2 ^ 16 := by
  rw [Asm.halfFits, decide_eq_true_iff]
  omega

theorem add_wellFormed_iff {w h d : Nat} :
    (Asm.add w h d).wellFormed = true ↔ w < 2 ^ 16 ∧ h < 2 ^ 16 ∧ d < 2 ^ 16 := by
  simp only [Asm.wellFormed, Bool.and_eq_true, halfFits_iff, and_assoc]

/-- Settles O24: a line has an encoding when it is well formed; the CFGDIM of a zero dimension raises, and
a frozen block discards the two commands behind it. -/
theorem addExpandsToThreeCommands : Obligations.AddExpandsToThreeCommands := by
  intro w h d
  refine ⟨fun fits => if_pos (add_wellFormed_iff.mpr fits), fun misfits => if_neg ?_,
    fun s hf zero _ _ => ?_⟩
  · rw [add_wellFormed_iff]
    omega
  · have zeroOperand : BitVec.ofNat 16 w = 0 ∨ BitVec.ofNat 16 h = 0 :=
      zero.imp (congrArg (BitVec.ofNat 16)) (congrArg (BitVec.ofNat 16))
    rw [Asm.expand, execAll_cons_next (exec_of_raises hf (.dimensions zeroOperand)),
      execAll_frozen _ (code_ne_zero .invalidDimensions)]
    rfl

end Sys2Proof.Machine

namespace Sys2Proof.Machine

/-! ### Which cause a command records (R201, R203 to R207) -/

theorem code_injective : Function.Injective FaultCause.code := by
  intro a b
  cases a <;> cases b <;> decide

theorem code_le_five (cause : FaultCause) : cause.code ≤ 5 := by cases cause <;> decide

/-- LZ_STATE is Idle or Flushed where no encode runs (R14, R203). -/
theorem running_eq_false {z : LzState} : z.running = false ↔ z = .idle ∨ z = .flushed := by
  cases z <;> simp

/-- From an unfaulted state FAULT holds a cause after a command exactly when the command raises it. -/
theorem exec_fault_eq_code {i : Instr} {s t : State} {cause : FaultCause} (hf : s.fault = 0)
    (h : exec i s = .next t) : t.fault = cause.code ↔ Raises s i cause := by
  constructor
  · intro hcode
    rcases exec_cases h with ⟨frozen, -⟩ | ⟨-, raised, hr, rfl⟩ | ⟨-, hp⟩
    · exact absurd hf frozen
    · rwa [← code_injective hcode]
    · exact absurd (hcode.symm.trans (hp.fault.trans hf)) (code_ne_zero cause)
  · intro hr
    rw [exec_of_raises hf hr] at h
    cases h
    rfl

/-- No command gives FAULT a value of no cause (R201). -/
theorem exec_fault_le_five {i : Instr} {s t : State} (hf : s.fault = 0) (h : exec i s = .next t) :
    t.fault ≤ 5 := by
  rcases exec_cases h with ⟨frozen, -⟩ | ⟨-, cause, -, rfl⟩ | ⟨-, hp⟩
  · exact absurd hf frozen
  · exact code_le_five cause
  · rw [hp.fault, hf]
    decide

/-- A word that decodes is no illegal word (R202). -/
theorem not_raises_illegalCommand {i : Instr} {s : State} : ¬Raises s i .illegalCommand := by
  rintro ⟨⟩

theorem raises_sequenceError_iff {i : Instr} {s : State} : Raises s i .sequenceError ↔
    NeedsEncode i ∧ (s.lzState = .idle ∨ s.lzState = .flushed) := by
  rw [← running_eq_false]
  constructor
  · intro h
    cases h with
    | sequence needs notRunning => exact ⟨needs, notRunning⟩
  · exact fun ⟨needs, notRunning⟩ => .sequence needs notRunning

theorem raises_invalidDimensions_iff {i : Instr} {s : State} : Raises s i .invalidDimensions ↔
    ∃ w h, i = .cfgdim w h ∧ (w = 0 ∨ h = 0) := by
  constructor
  · intro h
    cases h with
    | dimensions zero => exact ⟨_, _, rfl, zero⟩
  · rintro ⟨w, h, rfl, zero⟩
    exact .dimensions zero

theorem raises_pixelCountMismatch_iff {i : Instr} {s : State} : Raises s i .pixelCountMismatch ↔
    i = .save ∧ s.lzState.running = true ∧ s.symCount.toNat ≠ s.width.toNat * s.height.toNat := by
  constructor
  · intro h
    cases h with
    | count running differs => exact ⟨rfl, running, differs⟩
  · rintro ⟨rfl, running, differs⟩
    exact .count running differs

theorem raises_dictionaryOverflow_iff {i : Instr} {s : State} : Raises s i .dictionaryOverflow ↔
    ∃ c, Supplies i c ∧ s.lzState.running = true ∧ s.phrase ≠ [] ∧
      Dict.read s.dict (s.phrase ++ [c]) = none ∧ 2 ^ s.curWidth ≤ s.nextCode + 1 ∧
      s.params.maxWidth = .bounded s.curWidth := by
  constructor
  · intro h
    cases h with
    | overflow supplies running buffered absent full limit =>
      exact ⟨_, supplies, running, buffered, absent, full, limit⟩
  · rintro ⟨c, supplies, running, buffered, absent, full, limit⟩
    exact .overflow supplies running buffered absent full limit

/-- Settles O14: FAULT is the code of the cause the command raises, and each cause is raised on its own
condition. -/
theorem eachCauseHasItsCondition : Obligations.EachCauseHasItsCondition := by
  intro i s t hf h
  have records (cause : FaultCause) : t.fault = cause.code ↔ Raises s i cause :=
    exec_fault_eq_code hf h
  have le_five : t.fault ≤ 5 := exec_fault_le_five hf h
  refine ⟨fun h1 => not_raises_illegalCommand ((records .illegalCommand).mp h1), ?_, ?_,
    (records .sequenceError).trans raises_sequenceError_iff,
    (records .invalidDimensions).trans raises_invalidDimensions_iff,
    (records .pixelCountMismatch).trans raises_pixelCountMismatch_iff,
    (records .dictionaryOverflow).trans raises_dictionaryOverflow_iff⟩
  all_goals
    intro hcode
    rw [hcode] at le_five
    exact absurd le_five (by decide)

/-- Settles O11: the count is SAVE's own check, and PixelCountMismatch is no other command's. -/
theorem saveWithWrongCountFaults : Obligations.SaveWithWrongCountFaults := by
  refine ⟨fun s ⟨hf, running⟩ differs => exec_of_raises hf (.count running differs),
    fun i s t hi hf h h4 => hi ?_⟩
  have hr : Raises s i .pixelCountMismatch := (exec_fault_eq_code hf h).mp h4
  exact (raises_pixelCountMismatch_iff.mp hr).1

/-- Settles O13: only a command that needs an encode raises SequenceError, and it does so where none
runs. -/
theorem sequenceErrorOutsideAnEncode : Obligations.SequenceErrorOutsideAnEncode := by
  refine ⟨fun i s needs hf hz => exec_of_raises hf (raises_sequenceError_iff.mpr ⟨needs, hz⟩),
    fun i s t free hf h h2 => free ?_⟩
  have hr : Raises s i .sequenceError := (exec_fault_eq_code hf h).mp h2
  exact (raises_sequenceError_iff.mp hr).1

/-! ### Faults over one step (R200, R209) -/

/-- A word changes FAULT only by raising a cause, and then writes that word and nothing else (R208). -/
theorem presentWord_raises {w : CmdWord} {s t : State} (h : presentWord w s = .next t)
    (changed : t.fault ≠ s.fault) : s.fault = 0 ∧ ∃ cause, t = raise cause w s := by
  rcases presentWord_cases h with ⟨i, hd, he⟩ | ⟨-, -, rfl⟩ | ⟨-, hf, rfl⟩
  · rcases exec_cases he with ⟨-, rfl⟩ | ⟨hf, cause, -, rfl⟩ | ⟨-, hp⟩
    · exact absurd rfl changed
    · exact ⟨hf, cause, by rw [encodeOfDecodeIsTheWord w i hd]⟩
    · exact absurd hp.fault changed
  · exact absurd rfl changed
  · exact ⟨hf, _, rfl⟩

/-- Settles O15, case by case over what a step can do: waiting and reading keep FAULT, a command word
changes it by raising, and the reset event clears it. -/
theorem faultsAreSynchronousAndPrecise : Obligations.FaultsAreSynchronousAndPrecise := by
  intro s t h changed
  rcases step_cases h with ⟨-, rfl⟩ | ⟨w, rest, hin, hw⟩ | ⟨rest, hin, rfl⟩ | ⟨p, v, rest, -, -, rfl⟩
  · exact absurd rfl changed
  · obtain ⟨hf, cause, rfl⟩ := presentWord_raises hw changed
    exact .inl ⟨w, rest, hin, hf, rfl⟩
  · exact .inr ⟨rest, hin, rfl⟩
  · exact absurd rfl changed

/-- A frozen block discards every word, illegal ones too (R170 step 1, R209). -/
theorem presentWord_frozen (w : CmdWord) {s : State} (frozen : s.fault ≠ 0) :
    presentWord w s = .next s := by
  cases hd : decode w with
  | some i => rw [presentWord_decoded hd, exec_frozen i frozen]
  | none => rw [presentWord_undecoded hd, illegalCommand, if_pos frozen]

theorem step_command_frozen {w : CmdWord} {rest : List HostInput} {s : State} (frozen : s.fault ≠ 0)
    (hin : s.input = .command w :: rest) : step s = .next (takeCommand rest s) :=
  (step_command hin).trans (presentWord_frozen w frozen)

/-- Settles O16: a frozen block discards the word it takes, and of the other steps only the reset event
touches FAULT, FAULT_CMD or OUT. -/
theorem frozenBlockDiscardsUntilReset : Obligations.FrozenBlockDiscardsUntilReset := by
  intro rest s frozen
  refine ⟨fun w hin => step_command_frozen frozen hin, fun p v hv hin => step_read hin hv,
    fun hin => ⟨_, step_reset hin, rfl⟩, fun t h noReset => ?_⟩
  rcases step_cases h with ⟨-, rfl⟩ | ⟨w, more, hin, -⟩ | ⟨more, hin, -⟩ | ⟨p, v, more, -, -, rfl⟩
  · exact ⟨rfl, rfl, rfl⟩
  · rw [step_command_frozen frozen hin] at h
    cases h
    exact ⟨rfl, rfl, rfl⟩
  · exact absurd hin (noReset more)
  · exact ⟨rfl, rfl, rfl⟩

end Sys2Proof.Machine
